-- ==== Sys2Proof/Word.lean ====
section
/-! DEFINITION. The word types of SEVSEG_CORE: the fixed widths of 00_scope.md rule R8. -/

namespace Sys2Proof

/-- A character operand, or one byte of `IN` (30_encoding.md rule R44). -/
abbrev Byte := BitVec 8

/-- A Segment Encoding: segments a..g in bits 0..6, bit 7 reserved (30_encoding.md rule R40). -/
abbrev Slot := BitVec 8

/-- The field N of a request: a length bound or a capacity (30_encoding.md rule R47). -/
abbrev Len := BitVec 16

/-- The signed operand of CONVNUM, in two's complement (30_encoding.md rule R46). -/
abbrev Val := BitVec 64

/-- A request word (30_encoding.md rule R48). -/
abbrev Req := BitVec 96

/-- A response word (30_encoding.md rule R53). -/
abbrev Rsp := BitVec 32

end Sys2Proof
end

