-- ==== Sys2Proof/Syntax.lean ====
section
/-! DEFINITION. The four operations, one constructor per row of spec/opcode_table.json, with the fields that
30_encoding.md rule R49 gives each. -/

namespace Sys2Proof

/-- A request as syntax. A field that the operation does not use is absent (30_encoding.md rules R49 and R50). -/
inductive Instr where
  /-- VALIDATE ch (41_character.md rule R73). -/
  | validate (ch : Byte)
  /-- CONVCHAR ch, out; `outp` says whether OUT is present (41_character.md rule R74). -/
  | convchar (outp : Bool) (ch : Byte)
  /-- CONVWORD in, len, out; `leng` says whether `n` is an explicit bound (42_word.md rules R76 and R77). -/
  | convword (outp inp leng : Bool) (n : Len)
  /-- CONVNUM val, out, cap (43_number.md rule R86). -/
  | convnum (outp : Bool) (cap : Len) (val : Val)
  deriving DecidableEq, Repr

end Sys2Proof
end

