-- ==== Sys2Proof/WellFormed.lean ====
section
/-! DEFINITION. Well-formed requests: the form the assembler syntax of 30_encoding.md rule R56 gives one. -/

namespace Sys2Proof

/-- Every operand value is legal (30_encoding.md rules R44, R46, R47). The one check: a CONVWORD without an explicit
bound is written with N = 0 ("`DEFAULT` (LENG = 0, N = 0)", rule R56). -/
def Instr.wellFormed : Instr → Bool
  | .validate _ => true
  | .convchar _ _ => true
  | .convword _ _ leng n => leng || n == 0#16
  | .convnum _ _ _ => true

/-- A well-formed request, as a proposition. -/
abbrev Instr.WellFormed (i : Instr) : Prop := i.wellFormed = true

end Sys2Proof
end

