-- ==== Sys2Proof/Decode.lean ====
section
/-! DEFINITION. The request word's fields, the decoder and, after it, the encoder (30_encoding.md rules R48 to R55). -/

namespace Sys2Proof

/-- Why a request word has no meaning (30_encoding.md rule R51: the only reserved encodings, rule R52). -/
inductive DecodeError where
  /-- REQ[7:5] is not 0b000. -/
  | reservedBits
  deriving DecidableEq, Repr

/-- REQ[1:0]. -/
def Req.op (q : Req) : BitVec 2 := q.extractLsb' 0 2
/-- REQ[2]: OUT is present. -/
def Req.outp (q : Req) : Bool := q.getLsbD 2
/-- REQ[3]: IN is present. -/
def Req.inp (q : Req) : Bool := q.getLsbD 3
/-- REQ[4]: N holds an explicit maximum length. -/
def Req.leng (q : Req) : Bool := q.getLsbD 4
/-- REQ[7:5], which must be zero. -/
def Req.reserved (q : Req) : BitVec 3 := q.extractLsb' 5 3
/-- REQ[15:8]: the character operand. -/
def Req.ch (q : Req) : Byte := q.extractLsb' 8 8
/-- REQ[31:16]: a length bound or a capacity. -/
def Req.n (q : Req) : Len := q.extractLsb' 16 16
/-- REQ[95:32]: the signed operand. -/
def Req.val (q : Req) : Val := q.extractLsb' 32 64

/-- The decoding rule of 30_encoding.md rule R55: refuse nonzero reserved bits, else dispatch on OP. N of a CONVWORD with
LENG = 0 is not used (rule R50) and is read as 0 (rule R56; assumption entry 15). -/
def decode (q : Req) : Except DecodeError Instr :=
  if Req.reserved q = 0#3 then
    match (Req.op q).toNat with
    | 0 => .ok (.validate (Req.ch q))
    | 1 => .ok (.convchar (Req.outp q) (Req.ch q))
    | 2 => .ok (.convword (Req.outp q) (Req.inp q) (Req.leng q) (if Req.leng q then Req.n q else 0#16))
    | _ => .ok (.convnum (Req.outp q) (Req.n q) (Req.val q))
  else .error .reservedBits

/-- A field of a request word, placed with its least significant bit at bit `at0` (30_encoding.md rule R48). -/
def reqField {w : Nat} (x : BitVec w) (at0 : Nat) : Req := x.setWidth 96 <<< at0

/-- The request word with these fields in the places of 30_encoding.md rule R48 and REQ[7:5] zero. -/
def packReq (val : Val) (n : Len) (ch : Byte) (leng inp outp : Bool) (op : BitVec 2) : Req :=
  reqField val 32 ||| reqField n 16 ||| reqField ch 8 ||| reqField (BitVec.ofBool leng) 4 |||
    reqField (BitVec.ofBool inp) 3 ||| reqField (BitVec.ofBool outp) 2 ||| reqField op 0

/-- The request word of a request; "a don't-care field is written as 0 in the word" (30_encoding.md rule R56). -/
def encode : Instr → Req
  | .validate ch => packReq 0#64 0#16 ch false false false 0b00#2
  | .convchar outp ch => packReq 0#64 0#16 ch false false outp 0b01#2
  | .convword outp inp leng n => packReq 0#64 n 0#8 leng inp outp 0b10#2
  | .convnum outp cap val => packReq val cap 0#8 false false outp 0b11#2

/-- The request word whose low `nbits` bits are those of `w` and whose other bits are 0. REQ is a port word with
no byte order (20_memory.md rule R27), so the table's bit numbers are the word's own. -/
def tableWord (nbits w : Nat) : Req := BitVec.ofNat 96 (w % 2 ^ nbits)

/-- What the decoder reads from the request word with the bits of `w`. -/
def decodeTableWord (nbits w : Nat) : Option Instr :=
  match decode (tableWord nbits w) with
  | .ok i => some i
  | .error _ => none

end Sys2Proof
end

