-- ==== Sys2Proof/Config.lean ====
section
/-! DEFINITION. The configuration of one SEVSEG_CORE instance (00_scope.md rule R7) as plain data, and the values
the spec leaves open as opaque constants: nothing can be proved of which value such a constant has. -/

namespace Sys2Proof

/-- The Supported Character Range policy (40_table_provider.md rule R57). -/
inductive Range where
  | digits
  | digitsErr
  | full
  deriving DecidableEq, Repr

/-- The strategy of the Table Provider: Strategy A is `table`, Strategy B is `computed` (00_scope.md rule R7). -/
inductive Strategy where
  | table
  | computed
  deriving DecidableEq, Repr

/-- How an implementation stores a Segment Encoding (00_scope.md rules R7 and R10). -/
inductive FlatView where
  | packed
  | boolArray
  deriving DecidableEq, Repr, Inhabited

/-- The error-glyph index function H, by its values on the six error glyphs: "its values on other bytes are
irrelevant" (40_table_provider.md rule R68). -/
structure ErrIndex where
  upperE : Nat
  lowerE : Nat
  upperR : Nat
  lowerR : Nat
  upperO : Nat
  lowerO : Nat
  deriving DecidableEq, Repr

/-- The configuration `cfg = (RANGE, STRATEGY, FLAT_VIEW, MAX_WORD_LEN, GLYPH, H)` of an instance
(00_scope.md rule R7). `glyph` tabulates the function GLYPH over the 256 bytes. -/
structure Cfg where
  range      : Range
  strategy   : Strategy
  flatView   : FlatView
  maxWordLen : Len
  glyph      : Vector Slot 256
  errIndex   : ErrIndex
  deriving DecidableEq, Repr

/-- FLAT_VIEW of the instance that `State.reset` stands for: the spec names no default
(DESIGN CHOICE, assumption entry 3). -/
opaque Config.flatView : FlatView

/-- MAX_WORD_LEN of the instance that `State.reset` stands for: an OPEN parameter with no value
(00_scope.md rule R7; DESIGN CHOICE, assumption entry 3). -/
opaque Config.maxWordLen : Len

/-- The value left in a slot that the spec leaves at "any value" (60_exceptions.md rule R91,
70_reset_and_hazards.md rule R110); the argument numbers the draws (DESIGN CHOICE, assumption entry 12). -/
opaque Config.freeSlot : Nat → Slot

end Sys2Proof
end

