-- ==== Sys2Proof/Machine/Ranges.lean ====
section
/-! DEFINITION. The three supported character ranges (40_table_provider.md section 1), in the byte values of
30_encoding.md rule R45. -/

namespace Sys2Proof.Machine

/-- `-`, the sign glyph (40_table_provider.md rule R59). -/
def minusChar : Byte := 0x2D#8

/-- The null terminator (00_scope.md section 5, 42_word.md rule R77). -/
def nulChar : Byte := 0x00#8

/-- The character of a decimal digit: "`0x30 + k`" (30_encoding.md rule R45). -/
def digitChar (k : Nat) : Byte := BitVec.ofNat 8 (0x30 + k)

/-- The byte lies between two bytes, inclusive, as unsigned numbers (30_encoding.md rule R44). -/
def between (lo hi : Nat) (c : Byte) : Bool := Nat.ble lo c.toNat && Nat.ble c.toNat hi

/-- `0`..`9` (30_encoding.md rule R45). -/
def isDigitChar (c : Byte) : Bool := between 0x30 0x39 c

/-- The six error glyphs `E e R r O o` (40_table_provider.md rule R57). -/
def errChars : List Byte := [0x45#8, 0x65#8, 0x52#8, 0x72#8, 0x4F#8, 0x6F#8]

/-- The symbols of the FULL set other than `-`: `( )`, `< = >`, `[`, `]`, `_`, `|` (40_table_provider.md rule R57). -/
def isSymbolChar (c : Byte) : Bool :=
  between 0x28 0x29 c || between 0x3C 0x3E c || c == 0x5B#8 || c == 0x5D#8 || c == 0x5F#8 || c == 0x7C#8

/-- `A`..`Z` and `a`..`z` (30_encoding.md rule R45). -/
def isLetterChar (c : Byte) : Bool := between 0x41 0x5A c || between 0x61 0x7A c

/-- `InRange(c)`: membership in the set of the active range (40_table_provider.md rules R57 and R58). -/
def inRange (r : Range) (c : Byte) : Bool :=
  match r with
  | .digits => isDigitChar c || c == minusChar
  | .digitsErr => isDigitChar c || c == minusChar || errChars.contains c
  | .full => isDigitChar c || c == minusChar || isSymbolChar c || isLetterChar c

/-- The 256 bytes in ascending order. -/
def allBytes : List Byte := (List.range 256).map fun k => BitVec.ofNat 8 k

/-- The character set of a range: 11, 17 or 72 members (40_table_provider.md rule R57). -/
def members (r : Range) : List Byte := allBytes.filter (inRange r)

end Sys2Proof.Machine
end

