-- ==== Sys2Proof/Machine/Glyph.lean ====
section
/-! DEFINITION. The canonical reference encoding GLYPH, its constraints and default, the error-glyph index H, and the
legal configurations (40_table_provider.md section 2 and rules R68, R69; 60_exceptions.md rule R94). -/

namespace Sys2Proof.Machine

/-- The all-off Segment Encoding (30_encoding.md rule R43). -/
def allOff : Slot := 0x00#8

/-- GLYPH of a table over the 256 bytes (40_table_provider.md rule R60). -/
def slotOf (g : Vector Slot 256) (c : Byte) : Slot := g[c.toNat]'c.isLt

/-- `GLYPH(c)` of an instance (40_table_provider.md rule R60). -/
def glyphOf (cfg : Cfg) (c : Byte) : Slot := slotOf cfg.glyph c

/-- The segments a to g, by their positions (00_scope.md section 5). -/
inductive Segment where
  | a | b | c | d | e | f | g
  deriving DecidableEq, Repr

/-- `SEG_BIT`: the bit of a slot that holds a segment (30_encoding.md rule R40, 93_implementation_defined.md U6). -/
def segBit : Segment → Nat
  | .a => 0
  | .b => 1
  | .c => 2
  | .d => 3
  | .e => 4
  | .f => 5
  | .g => 6

/-- The slot with exactly the listed segments on (30_encoding.md rule R40). -/
def segments (on : List Segment) : Slot :=
  on.foldl (fun s x => s ||| (1#8 <<< segBit x)) 0x00#8

/-- DEFAULT_GLYPH of `0` to `9` (40_table_provider.md rule R62). -/
def defaultDigits : List Slot :=
  [0x3F#8, 0x06#8, 0x5B#8, 0x4F#8, 0x66#8, 0x6D#8, 0x7D#8, 0x07#8, 0x7F#8, 0x6F#8]

/-- DEFAULT_GLYPH of `A` to `Z` (40_table_provider.md rule R62). -/
def defaultUpper : List Slot :=
  [0x77#8, 0x7C#8, 0x39#8, 0x5E#8, 0x79#8, 0x71#8, 0x3D#8, 0x76#8, 0x30#8, 0x1E#8, 0x75#8, 0x38#8, 0x55#8,
   0x37#8, 0x3F#8, 0x73#8, 0x67#8, 0x31#8, 0x6D#8, 0x78#8, 0x3E#8, 0x3E#8, 0x2A#8, 0x76#8, 0x6E#8, 0x5B#8]

/-- DEFAULT_GLYPH of `a` to `z` (40_table_provider.md rule R62). -/
def defaultLower : List Slot :=
  [0x5F#8, 0x7C#8, 0x58#8, 0x5E#8, 0x7B#8, 0x71#8, 0x6F#8, 0x74#8, 0x10#8, 0x0E#8, 0x75#8, 0x30#8, 0x55#8,
   0x54#8, 0x5C#8, 0x73#8, 0x67#8, 0x50#8, 0x6D#8, 0x78#8, 0x1C#8, 0x1C#8, 0x2A#8, 0x76#8, 0x6E#8, 0x5B#8]

/-- DEFAULT_GLYPH of the bytes 0x20 to 0x2F, of which `(`, `)` and `-` are listed (40_table_provider.md rule R62). -/
def default20 : List Slot :=
  List.replicate 8 allOff ++ [0x39#8, 0x0F#8, allOff, allOff, allOff, 0x40#8, allOff, allOff]

/-- DEFAULT_GLYPH of the bytes 0x3A to 0x40, of which `<`, `=` and `>` are listed (40_table_provider.md rule R62). -/
def default3A : List Slot := [allOff, allOff, 0x61#8, 0x48#8, 0x43#8, allOff, allOff]

/-- DEFAULT_GLYPH of the bytes 0x5B to 0x60, of which `[`, `]` and `_` are listed (40_table_provider.md rule R62). -/
def default5B : List Slot := [0x39#8, allOff, 0x0F#8, allOff, 0x08#8, allOff]

/-- DEFAULT_GLYPH of the bytes 0x7B to 0xFF, of which `|` is listed (40_table_provider.md rule R62). -/
def default7B : List Slot := [allOff, 0x30#8] ++ List.replicate 131 allOff

/-- DEFAULT_GLYPH over the 256 bytes: "0x00 for every byte not listed" (40_table_provider.md rule R62). -/
def defaultSlots : List Slot :=
  List.replicate 32 allOff ++ default20 ++ defaultDigits ++ default3A ++ defaultUpper ++ default5B ++ defaultLower ++
    default7B

/-- DEFAULT_GLYPH as a table. -/
def defaultGlyph : Vector Slot 256 := ⟨defaultSlots.toArray, by
  simp only [defaultSlots, default20, defaultDigits, default3A, defaultUpper, default5B, defaultLower, default7B,
    List.size_toArray, List.length_append, List.length_replicate, List.length_cons, List.length_nil]⟩

/-- The default H (40_table_provider.md rule R69); the subtraction is on the 8-bit byte. -/
def hDefault (c : Byte) : Byte :=
  ((((c >>> 1) &&& 0b11#8) - 1#8) <<< 1) ||| ((c >>> 5) &&& 1#8)

/-- The default H by its values on the six error glyphs (40_table_provider.md rules R68 and R69). -/
def defaultErrIndex : ErrIndex where
  upperE := (hDefault 0x45#8).toNat
  lowerE := (hDefault 0x65#8).toNat
  upperR := (hDefault 0x52#8).toNat
  lowerR := (hDefault 0x72#8).toNat
  upperO := (hDefault 0x4F#8).toNat
  lowerO := (hDefault 0x6F#8).toNat

/-- `H(c)` on the six error glyphs, in the order of `errChars`. -/
def errIndices (h : ErrIndex) : List Nat :=
  [h.upperE, h.lowerE, h.upperR, h.lowerR, h.upperO, h.lowerO]

/-- `H(c)` of an error glyph; H is applied to no other byte (40_table_provider.md rule R68). -/
def errIndexOf (h : ErrIndex) (c : Byte) : Option Nat :=
  (errChars.zip (errIndices h)).lookup c

/-- Items 1 and 2 of 40_table_provider.md rule R61 for one byte: all-off outside the FULL set, bit 7 clear. -/
def entryAdmissible (c : Byte) (s : Slot) : Bool := (inRange .full c || s == allOff) && !s.getLsbD 7

/-- The constraints on GLYPH (40_table_provider.md rule R61). -/
def glyphAdmissible (g : Vector Slot 256) : Bool :=
  (allBytes.zip g.toList).all (fun p => entryAdmissible p.1 p.2) &&
  slotOf g 0x45#8 != slotOf g 0x65#8 && slotOf g 0x52#8 != slotOf g 0x72#8 && slotOf g 0x4F#8 != slotOf g 0x6F#8

/-- The constraints on H: injective on the six error glyphs, with range [0,6) (40_table_provider.md rule R68). -/
def errIndexAdmissible (h : ErrIndex) : Bool :=
  decide (errIndices h).Nodup && (errIndices h).all fun k => Nat.blt k 6

/-- A configuration a model elaborates: not FULL with COMPUTED, GLYPH and H admissible (00_scope.md rule R9,
60_exceptions.md rule R94). -/
def cfgLegal (cfg : Cfg) : Bool :=
  !(cfg.range == .full && cfg.strategy == .computed) && glyphAdmissible cfg.glyph && errIndexAdmissible cfg.errIndex

/-! The two views of a Segment Encoding (30_encoding.md rule R42): projections of the one slot value. -/

/-- The structured view: seven booleans by name (30_encoding.md rule R42). -/
structure SegmentView where
  a : Bool
  b : Bool
  c : Bool
  d : Bool
  e : Bool
  f : Bool
  g : Bool
  deriving DecidableEq, Repr

/-- The structured view of a slot (30_encoding.md rule R42). -/
def structuredView (s : Slot) : SegmentView where
  a := s.getLsbD (segBit .a)
  b := s.getLsbD (segBit .b)
  c := s.getLsbD (segBit .c)
  d := s.getLsbD (segBit .d)
  e := s.getLsbD (segBit .e)
  f := s.getLsbD (segBit .f)
  g := s.getLsbD (segBit .g)

/-- The flat view of a slot with FLAT_VIEW = BOOL_ARRAY, element 0 being segment a (30_encoding.md rule R42). -/
def boolArrayView (s : Slot) : Vector Bool 7 := Vector.ofFn fun x => s.getLsbD x.val

/-- The flat view of a slot with FLAT_VIEW = PACKED: the byte itself (30_encoding.md rule R42). -/
def packedView (s : Slot) : Byte := s

end Sys2Proof.Machine
end

