-- ==== Sys2Proof/Machine/Provider.lean ====
section
/-! DEFINITION. The Table Provider (40_table_provider.md section 3): the encoding ROM, Strategy A, Strategy B. -/

namespace Sys2Proof.Machine

/-- The dense table entries of the six error glyphs: at position k the glyph c with `H(c) = k`
(40_table_provider.md rule R67); an index no glyph takes would hold 0x00. -/
def errEntries (cfg : Cfg) : List Slot :=
  (List.range 6).map fun k =>
    match errChars.find? fun c => errIndexOf cfg.errIndex c == some k with
    | some c => glyphOf cfg c
    | none => allOff

/-- The entries for the ten digits (40_table_provider.md rules R66 and R67). -/
def digitEntries (cfg : Cfg) : List Slot := (List.range 10).map fun k => glyphOf cfg (digitChar k)

/-- The contents of the encoding ROM of an instance: 256 entries for FULL, dense tables of 11 and 17 entries for DIGITS and
DIGITS_ERR, none with Strategy B (10_state.md rule R18, 40_table_provider.md rules R64, R66, R67). -/
def romOf (cfg : Cfg) : List Slot :=
  match cfg.strategy, cfg.range with
  | .computed, _ => []
  | .table, .full => cfg.glyph.toList
  | .table, .digits => digitEntries cfg ++ [glyphOf cfg minusChar]
  | .table, .digitsErr => digitEntries cfg ++ errEntries cfg ++ [glyphOf cfg minusChar]

/-- The index of a member of the active set in the ROM: the byte for FULL (40_table_provider.md rule R64), `Idx(c)` for a
dense table, whose last entry is the sign slot (rule R65). -/
def romIndex (cfg : Cfg) (c : Byte) : Option Nat :=
  match cfg.range with
  | .full => some c.toNat
  | .digits => if c = minusChar then some 10 else some (c.toNat - 0x30)
  | .digitsErr =>
    if c = minusChar then some 16
    else if errChars.contains c then (errIndexOf cfg.errIndex c).map (10 + ·)
    else some (c.toNat - 0x30)

/-- Strategy A: one index into the ROM (40_table_provider.md rules R64 and R65). -/
def provideTable (cfg : Cfg) (rom : List Slot) (c : Byte) : Option Slot :=
  (romIndex cfg c).bind fun k => rom[k]?

/-- Strategy B: segment x is on when c is some member k with `GLYPH(k)[x] = 1`; bit 7 is 0
(40_table_provider.md rule R70). -/
def computedSlot (cfg : Cfg) (c : Byte) : Slot :=
  BitVec.ofFnLE fun x : Fin 8 =>
    x.val < 7 && (members cfg.range).any fun k => (glyphOf cfg k).getLsbD x.val && c == k

/-- `Provide(c)`: Strategy A or B by the configuration. `none` is a byte that the provider cannot encode: one outside the
active range (40_table_provider.md rule R63), one whose ROM entry is missing, or any byte of the configuration that has no
provider (FULL with COMPUTED, 00_scope.md rule R9). -/
def provide (cfg : Cfg) (rom : List Slot) (c : Byte) : Option Slot :=
  if inRange cfg.range c then
    match cfg.strategy, cfg.range with
    | .table, _ => provideTable cfg rom c
    | .computed, .full => none
    | .computed, _ => some (computedSlot cfg c)
  else none

end Sys2Proof.Machine
end

