-- ==== Sys2Proof/Machine/State.lean ====
section
/-! DEFINITION. The state of the machine as plain data (10_state.md rules R20 to R23), the reasons a transaction can stop
with, and the state after reset. -/

namespace Sys2Proof.Machine

/-- One caller buffer: the list of its (index, byte) cells. The spaces `IN` and `OUT` are two such lists
(20_memory.md rule R24). An index that is not listed does not exist: it has no value, and an access to it is an access past
the buffer (rule R26; assumption entry 6). -/
abbrev Memory := List Host.Cell

/-- The canonical form of a buffer of length n: its cells are those of the indices 0, 1, .., n - 1, in that order. No entry
can equal what an unlisted index reads as, since that is no value. -/
def Memory.wf (m : Memory) : Bool := m.map Prod.fst == List.range m.length

/-- Why a transaction ends with a fault (60_exceptions.md rule R92). A fault is an outcome of `exec`, not a response;
`step` then marks the state with it, as rule R91 says. -/
inductive Fault where
  /-- A read of `IN[i]` with `i >= IN_LEN` or a write of `OUT[i]` with `i >= OUT_LEN` (20_memory.md rule R26). Raised by
  CONVCHAR, CONVWORD and CONVNUM. Safe: the claims of a run take `faulted = none`. -/
  | outOfBuffer
  /-- The Table Provider has no encoding for a byte it is asked for, or the conversion of a digit or of `-` fails in CONVNUM
  (60_exceptions.md rule R92). Raised by CONVCHAR, CONVWORD and CONVNUM, only in states whose ROM is not that of a legal
  configuration. Safe. -/
  | internalInvariant
  deriving DecidableEq, Repr

/-- Why a request has no meaning (60_exceptions.md rules R93 to R95). A refusal writes no buffer and gives no response. -/
inductive Refusal where
  /-- An instruction of the opcode table without a meaning. Raised by no arm of `exec`. Safe. -/
  | notModelled (mnemonic : String)
  /-- `REQ[7:5] != 0b000` (30_encoding.md rule R51). Raised when a request is decoded. Safe. -/
  | reservedBits
  /-- The instance's configuration is illegal: no request is processed (60_exceptions.md rule R94). Raised when the instance is
  elaborated. Safe. -/
  | illegalConfig
  /-- A CONVWORD whose IN and OUT occupy overlapping storage (70_reset_and_hazards.md rule R115). Raised by CONVWORD. Safe. -/
  | bufferOverlap
  /-- Another agent touches IN or OUT, or a second request is issued, during a transaction (70_reset_and_hazards.md rules R113
  and R114). Raised by the transaction that is disturbed. Safe. -/
  | concurrentAccess
  deriving DecidableEq, Repr

/-- The failure class of a transaction (60_exceptions.md rule R89). -/
inductive FailureClass where
  | noFailure
  | invalidArgument
  | unsupportedCharacter
  | bufferTooSmall
  | internalInvariant
  deriving DecidableEq, Repr

/-- What happens outside the block while a transaction is in progress: at most one disturbance. The spec does not say how two of
them combine, such as a second request and a reset that meet the same transaction (70_reset_and_hazards.md rules R110, R113 and
R114), and the model has no event for it (DESIGN CHOICE, assumption entry 21). -/
inductive Interference where
  /-- Nothing: the requester keeps rules R113 and R114 of 70_reset_and_hazards.md. -/
  | undisturbed
  /-- A reset arrives before the transaction has ended (70_reset_and_hazards.md rule R110). A reset after its response or its
  fault is a reset between transactions. -/
  | resetArrives
  /-- A second request is issued (70_reset_and_hazards.md rule R113). -/
  | secondRequest
  /-- Another agent reads or writes IN or OUT (70_reset_and_hazards.md rule R114). -/
  | agentAccess
  deriving DecidableEq, Repr

/-- One action of the outside world, in the order they happen (10_state.md rule R14: "Sequencing of requests is the
caller's"). -/
inductive Event where
  /-- The caller binds IN and OUT with these contents; `overlap` says whether the two share storage
  (70_reset_and_hazards.md rules R111 and R115). -/
  | bind (inBytes outSlots : List Byte) (overlap : Bool)
  /-- The requester issues a request word (30_encoding.md rule R48). -/
  | request (req : Req) (during : Interference)
  /-- A reset between transactions (70_reset_and_hazards.md rule R109). -/
  | reset
  deriving DecidableEq, Repr

/-- The state of one instance together with the buffers its caller has bound. -/
structure State where
  /-- The elaborated configuration, constant for the life of the instance (10_state.md rule R17; assumption entry 1). -/
  cfg     : Cfg
  /-- The read-only encoding ROM of Strategy A (10_state.md rule R18). -/
  rom     : List Slot
  /-- IN, read by CONVWORD and written by no operation (10_state.md rule R20). -/
  inBuf   : Memory
  /-- OUT, written and never read (10_state.md rules R20 and R21). -/
  outBuf  : Memory
  /-- IN and OUT occupy overlapping storage (70_reset_and_hazards.md rule R115). -/
  overlap : Bool
  /-- What the outside will do next, first first (assumption entry 4). -/
  pending : List Event
  /-- The response word of the last transaction, none when it gave none (10_state.md rule R15; assumption entry 13). -/
  rsp     : Option Rsp
  /-- The failure class recorded for the last transaction (60_exceptions.md rule R89; assumption entry 13). -/
  cls     : Option FailureClass
  /-- The fault mark, with the reason recorded (10_state.md rule R21, 60_exceptions.md rule R91). -/
  faulted : Option Fault
  /-- The refusal mark, with the reason recorded (10_state.md rule R21, 60_exceptions.md rule R93). -/
  refused : Option Refusal
  /-- How many free values have been drawn (the model's own; assumption entry 12). -/
  draw    : Nat
  deriving DecidableEq, Repr

/-- The elaborated configuration of the instance `State.reset` stands for: the spec's defaults where it names one
(00_scope.md rule R7, 40_table_provider.md rules R60, R62, R69), and opaque values elsewhere (assumption entries 2, 3). -/
def resetCfg : Cfg where
  range      := .full
  strategy   := .table
  flatView   := Config.flatView
  maxWordLen := Config.maxWordLen
  glyph      := defaultGlyph
  errIndex   := defaultErrIndex

/-- An instance of a configuration before its caller has bound a buffer or issued a request, its marks false
(10_state.md rule R23, 70_reset_and_hazards.md rule R111). -/
def State.fresh (cfg : Cfg) : State where
  cfg     := cfg
  rom     := romOf cfg
  inBuf   := []
  outBuf  := []
  overlap := false
  pending := []
  rsp     := none
  cls     := none
  faulted := none
  refused := none
  draw    := 0

/-- Elaboration: an instance with an illegal configuration is refused from the start (60_exceptions.md rule R94). -/
def State.elaborate (cfg : Cfg) : State :=
  { State.fresh cfg with refused := if cfgLegal cfg then none else some .illegalConfig }

/-- The machine right after reset (10_state.md rule R23, 70_reset_and_hazards.md rule R109). Its configuration is legal, so it
is also what elaboration gives with every mark false. -/
def State.reset : State := State.fresh resetCfg

end Sys2Proof.Machine
end

