-- ==== Sys2Proof/Machine/Ops.lean ====
section
/-! DEFINITION. The named operations over the caller's buffers and over the state, the taking of a fault and of a refusal
among them (20_memory.md, 60_exceptions.md, 70_reset_and_hazards.md). -/

namespace Sys2Proof.Machine

/-! ## Buffers -/

/-- The buffer that holds these bytes, index 0 first (20_memory.md rule R24). -/
def Memory.ofBytes (bs : List Byte) : Memory := (List.range bs.length).zip bs

/-- `MemRead((space, i), 1)`: the byte at an index, `none` at an index that does not exist (00_scope.md rule R12). -/
def Memory.read (m : Memory) (i : Nat) : Option Byte := m.lookup i

/-- `MemWrite((space, i), 1, v)`: one whole slot is written (20_memory.md rule R29); `none` at an index that does not
exist. -/
def Memory.write (m : Memory) (i : Nat) (v : Byte) : Option Memory :=
  if (m.read i).isSome then some (m.map fun c => if c.1 = i then (c.1, v) else c) else none

/-- Every slot below `k` takes a free value, numbered from `d` on (60_exceptions.md rule R91, 70_reset_and_hazards.md
rule R110). -/
def Memory.havoc (m : Memory) (k d : Nat) : Memory :=
  m.map fun c => if c.1 < k then (c.1, Config.freeSlot (d + c.1)) else c

/-! ## Ends of a transaction -/

/-- A transaction ends with a response: OUT as written, the response word, the recorded class (00_scope.md rule R12). -/
def State.respond (s : State) (out : Memory) (w : Rsp) (c : FailureClass) : State :=
  { s with outBuf := out, rsp := some w, cls := some c }

/-- The class of a fault: class 4 is `Fault(InternalInvariant)` (60_exceptions.md rule R89). -/
def faultClass : Fault → Option FailureClass
  | .outOfBuffer => none
  | .internalInvariant => some .internalInvariant

/-- A transaction is cut short: no response, and every slot it could write, those below `k`, takes a free value
(60_exceptions.md rule R91, 70_reset_and_hazards.md rule R110). -/
def State.abandon (s : State) (k : Nat) : State :=
  { s with outBuf := s.outBuf.havoc k s.draw, rsp := none, cls := none, draw := s.draw + k }

/-- Taking a fault: no response, free values in the slots below `k`, `faulted` set with its reason and never cleared
(60_exceptions.md rule R91). -/
def State.takeFault (s : State) (f : Fault) (k : Nat) : State :=
  { s.abandon k with cls := faultClass f, faulted := s.faulted.or (some f) }

/-- The refusal mark, set with its reason and never cleared (60_exceptions.md rule R93). -/
def State.markRefused (s : State) (r : Refusal) : State :=
  { s with refused := s.refused.or (some r) }

/-- Taking a refusal: no response, no buffer written, the mark set (60_exceptions.md rule R93). -/
def State.takeRefusal (s : State) (r : Refusal) : State :=
  { s.markRefused r with rsp := none, cls := none }

/-- A reset between transactions: no response is pending, no architectural state changes (70_reset_and_hazards.md rule R109).
That the recorded class is cleared with the response is the model's (DESIGN CHOICE, assumption entry 13). -/
def State.onReset (s : State) : State := { s with rsp := none, cls := none }

/-- The caller binds IN and OUT (70_reset_and_hazards.md rule R111). -/
def State.onBind (s : State) (inBytes outSlots : List Byte) (overlap : Bool) : State :=
  { s with inBuf := Memory.ofBytes inBytes, outBuf := Memory.ofBytes outSlots, overlap := overlap }

end Sys2Proof.Machine
end

