-- ==== Sys2Proof/Machine/Flags.lean ====
section
/-! DEFINITION. The status outputs OK and COUNT, "the only flags" of SEVSEG_CORE (10_state.md rule R15), as fields of the
response word (30_encoding.md rules R53 and R54). -/

namespace Sys2Proof.Machine

/-- The response word with COUNT in RSP[31:16], OK in RSP[0] and RSP[15:1] zero (30_encoding.md rule R53). -/
def rspWord (ok : Bool) (count : Len) : Rsp := (count.setWidth 32 <<< 16) ||| (BitVec.ofBool ok).setWidth 32

/-- `RSP{OK = ok}`: COUNT is 0 (30_encoding.md rule R54). -/
def rspOk (ok : Bool) : Rsp := rspWord ok 0#16

/-- `RSP{COUNT = n}`: OK is 0 (30_encoding.md rule R54). -/
def rspCount (n : Nat) : Rsp := rspWord false (BitVec.ofNat 16 n)

/-- RSP[0]. -/
def okOf (w : Rsp) : Bool := w.getLsbD 0

/-- RSP[31:16]. -/
def countOf (w : Rsp) : Len := w.extractLsb' 16 16

end Sys2Proof.Machine
end

