-- ==== Sys2Proof/Machine/Operands.lean ====
section
/-! DEFINITION. The operand forms: the bound of a CONVWORD, the slots a request could write, and the conversion of one
character into one slot, which CONVCHAR, CONVWORD and CONVNUM share. -/

namespace Sys2Proof.Machine

/-- The bound L: N as given with LENG = 1, MAX_WORD_LEN otherwise (42_word.md rule R76). -/
def wordBound (cfg : Cfg) (leng : Bool) (n : Len) : Nat :=
  if leng then n.toNat else cfg.maxWordLen.toNat

/-- A request could write the slots below this number (70_reset_and_hazards.md rule R110). -/
def footprint (cfg : Cfg) : Instr → Nat
  | .validate _ => 0
  | .convchar outp _ => if outp then 1 else 0
  | .convword outp inp leng n => if outp && inp then wordBound cfg leng n else 0
  | .convnum outp cap _ => if outp then min cap.toNat 20 else 0

/-- Conversion of character `c` into slot `i`: an unsupported character writes all-off and fails (`false`), a supported one
writes `Provide(c)` and succeeds (41_character.md rule R74, 42_word.md rule R77). -/
def convertInto (s : State) (c : Byte) (i : Nat) (out : Memory) : Except Fault (Memory × Bool) :=
  if inRange s.cfg.range c then
    match provide s.cfg s.rom c with
    | none => .error .internalInvariant
    | some g =>
      match out.write i g with
      | none => .error .outOfBuffer
      | some out' => .ok (out', true)
  else
    match out.write i allOff with
    | none => .error .outOfBuffer
    | some out' => .ok (out', false)

end Sys2Proof.Machine
end

