-- ==== Sys2Proof/Machine/Character.lean ====
section
/-! DEFINITION. The character operations VALIDATE and CONVCHAR (41_character.md). -/

namespace Sys2Proof.Machine

/-- VALIDATE: OK is `InRange(c)`; no buffer is touched (41_character.md rule R73). -/
def execValidate (ch : Byte) (s : State) : Host.Outcome State Fault Refusal :=
  .next (s.respond s.outBuf (rspOk (inRange s.cfg.range ch)) .noFailure)

/-- CONVCHAR: nothing without an output location, else the conversion of `ch` into `OUT[0]` (41_character.md rule R74). -/
def execConvchar (outp : Bool) (ch : Byte) (s : State) : Host.Outcome State Fault Refusal :=
  if outp then
    match convertInto s ch 0 s.outBuf with
    | .error f => .fault f
    | .ok (out, true) => .next (s.respond out (rspOk true) .noFailure)
    | .ok (out, false) => .next (s.respond out (rspOk false) .unsupportedCharacter)
  else .next (s.respond s.outBuf (rspOk false) .invalidArgument)

end Sys2Proof.Machine
end

