-- ==== Sys2Proof/Machine/Number.lean ====
section
/-! DEFINITION. The digit extractor and the signed-integer operation CONVNUM (43_number.md). -/

namespace Sys2Proof.Machine

/-- The operand is negative. -/
def isNeg (v : Val) : Bool := v.msb

/-- The magnitude, as an unsigned 64-bit number: `(v < 0) ? (0 -_64 u64(v)) : u64(v)` (43_number.md rule R80). -/
def magnitude (v : Val) : BitVec 64 := if isNeg v then 0#64 - v else v

/-- `POW10[k] = 10^k` (43_number.md rule R81). -/
def pow10 (k : Nat) : Nat := 10 ^ k

/-- The digit count `D(m)`: the least d in 1..19 with `m < POW10[d]` (43_number.md rule R82). A magnitude has such a d; for
a larger m, which no operand gives, the last d stands. -/
def digitCount (m : Nat) : Nat :=
  ((List.range' 1 19).find? fun d => decide (m < pow10 d)).getD 19

/-- The source's comparison chain: `while d <= 18 and mag >= POW10[d]: d = d + 1`, with `fuel` steps left
(43_number.md rule R85). -/
def digitChain (m : Nat) : (fuel d : Nat) → Nat
  | 0, d => d
  | fuel + 1, d => if d ≤ 18 ∧ pow10 d ≤ m then digitChain m fuel (d + 1) else d

/-- `dig(m, j) = (m div POW10[D(m) - 1 - j]) mod 10`, from the most significant digit (43_number.md rule R84). -/
def digit (m j : Nat) : Nat := m / pow10 (digitCount m - 1 - j) % 10

/-- The required length n: one slot per digit, and the sign slot if any (43_number.md rule R83). -/
def requiredLen (v : Val) : Nat := digitCount (magnitude v).toNat + if isNeg v then 1 else 0

/-- The digit characters of m, most significant first (43_number.md rules R84 and R86). -/
def digitText (m : Nat) : List Byte := (List.range (digitCount m)).map fun j => digitChar (digit m j)

/-- The characters CONVNUM converts: the sign, if any, and the digits (43_number.md rule R86). -/
def numText (v : Val) : List Byte :=
  (if isNeg v then [minusChar] else []) ++ digitText (magnitude v).toNat

/-- Conversion of the characters into the slots from `i` on; each must succeed ("a conversion of a digit or `-` inside CONVNUM
fails": 60_exceptions.md rule R92). -/
def writeText (s : State) : (text : List Byte) → (i : Nat) → (out : Memory) → Except Fault Memory
  | [], _, out => .ok out
  | c :: text, i, out =>
    match convertInto s c i out with
    | .error f => .error f
    | .ok (out', true) => writeText s text (i + 1) out'
    | .ok (_, false) => .error .internalInvariant

/-- CONVNUM (43_number.md rule R86), its failure tests in the order of rule R87. -/
def execConvnum (outp : Bool) (cap : Len) (val : Val) (s : State) : Host.Outcome State Fault Refusal :=
  if !outp then .next (s.respond s.outBuf (rspOk false) .invalidArgument)
  else if cap = 0#16 then .next (s.respond s.outBuf (rspOk false) .invalidArgument)
  else if cap.toNat < requiredLen val then .next (s.respond s.outBuf (rspOk false) .bufferTooSmall)
  else
    match writeText s (numText val) 0 s.outBuf with
    | .error f => .fault f
    | .ok out => .next (s.respond out (rspOk true) .noFailure)

end Sys2Proof.Machine
end

