-- ==== Sys2Proof/Machine/WordScan.lean ====
section
/-! DEFINITION. The string operation CONVWORD (42_word.md). -/

namespace Sys2Proof.Machine

/-- What ended a scan (42_word.md rules R77 and R78). -/
inductive ScanStop where
  | bound
  | terminator
  | unsupported
  deriving DecidableEq, Repr

/-- The result of a scan: OUT as written, the index reached, what ended it. -/
structure ScanEnd where
  out   : Memory
  count : Nat
  stop  : ScanStop
  deriving DecidableEq, Repr

/-- The loop of 42_word.md rule R77 from index `i` with `k` more characters allowed: the bound is tested first, then `IN[i]`
is read, then come the terminator and the unsupported character. -/
def scanWord (s : State) : (k i : Nat) → (out : Memory) → Except Fault ScanEnd
  | 0, i, out => .ok ⟨out, i, .bound⟩
  | k + 1, i, out =>
    match s.inBuf.read i with
    | none => .error .outOfBuffer
    | some c =>
      if c = nulChar then .ok ⟨out, i, .terminator⟩
      else
        match convertInto s c i out with
        | .error f => .error f
        | .ok (out', false) => .ok ⟨out', i, .unsupported⟩
        | .ok (out', true) => scanWord s k (i + 1) out'

/-- The class recorded for a scan (60_exceptions.md rule R89): a bound of 0 is an invalid argument, the stop at a terminator
or at the bound is no failure. -/
def scanClass (bound : Nat) (stop : ScanStop) : FailureClass :=
  if bound = 0 then .invalidArgument
  else
    match stop with
    | .unsupported => .unsupportedCharacter
    | .bound => .noFailure
    | .terminator => .noFailure

/-- CONVWORD (42_word.md rule R77). Overlapping buffers are refused before the other checks (60_exceptions.md rule R96);
a buffer whose presence bit is 0 does not exist for the request and overlaps nothing (assumption entry 16). -/
def execConvword (outp inp leng : Bool) (n : Len) (s : State) : Host.Outcome State Fault Refusal :=
  if inp && outp then
    if s.overlap then .refused .bufferOverlap
    else
      match scanWord s (wordBound s.cfg leng n) 0 s.outBuf with
      | .error f => .fault f
      | .ok e => .next (s.respond e.out (rspCount e.count) (scanClass (wordBound s.cfg leng n) e.stop))
  else .next (s.respond s.outBuf (rspCount 0) .invalidArgument)

end Sys2Proof.Machine
end

