-- ==== Sys2Proof/Machine/Dispatch.lean ====
section
/-! DEFINITION. One arm per operation (30_encoding.md rule R55). -/

namespace Sys2Proof.Machine

def exec (i : Instr) (s : State) : Host.Outcome State Fault Refusal :=
  match i with
  | .validate ch => Sys2Proof.Machine.execValidate ch s
  | .convchar outp ch => Sys2Proof.Machine.execConvchar outp ch s
  | .convword outp inp leng n => Sys2Proof.Machine.execConvword outp inp leng n s
  | .convnum outp cap val => Sys2Proof.Machine.execConvnum outp cap val s

end Sys2Proof.Machine
end

