-- ==== Sys2Proof/Machine/Transaction.lean ====
section
/-! DEFINITION. One transaction: a request word is checked, decoded and executed, and its outcome becomes the next state of the
run (00_scope.md rule R6, 60_exceptions.md rules R91, R93 and R96). -/

namespace Sys2Proof.Machine

/-- The state after a transaction that `exec` gave this outcome. A fault and a refusal are not final states of the run: the
marks of 10_state.md rule R21 are set and the next request follows by its rule (60_exceptions.md rules R91 and R93; program P4
of 95_test_vectors.md; assumption entries 7 and 9). A reset that arrives while the transaction is in progress abandons it
before it responds or faults, so that neither happens (70_reset_and_hazards.md rule R110); a refused request is none in
progress (assumption entry 14). -/
def conclude (i : Instr) (d : Interference) (s : State) : Host.Outcome State Fault Refusal → State
  | .refused r => s.takeRefusal r
  | .fault f => if d = .resetArrives then s.abandon (footprint s.cfg i) else s.takeFault f (footprint s.cfg i)
  | .next t => if d = .resetArrives then s.abandon (footprint s.cfg i) else t

/-- The second request of 70_reset_and_hazards.md rule R113 is refused; the transaction it disturbs is complete (assumption
entry 11). -/
def refuseSecond (d : Interference) (s : State) : State :=
  match d with
  | .secondRequest => s.markRefused .concurrentAccess
  | .undisturbed => s
  | .resetArrives => s
  | .agentAccess => s

/-- A request whose word has a meaning: executed, unless another agent touches the buffers meanwhile
(70_reset_and_hazards.md rule R114; assumption entry 18). -/
def runRequest (i : Instr) (d : Interference) (s : State) : State :=
  if d = .agentAccess then s.takeRefusal .concurrentAccess
  else refuseSecond d (conclude i d s (exec i s))

/-- One transaction. Refusals come before anything else (60_exceptions.md rule R96): an instance refused at elaboration
processes no request (rule R94), and a word with reserved bits has no meaning (30_encoding.md rule R51). -/
def transact (q : Req) (d : Interference) (s : State) : State :=
  if s.refused = some .illegalConfig then s.takeRefusal .illegalConfig
  else
    match decode q with
    | .error .reservedBits => refuseSecond d (s.takeRefusal .reservedBits)
    | .ok i => runRequest i d s

/-- What one action of the outside does. -/
def handleEvent (e : Event) (s : State) : State :=
  match e with
  | .bind inBytes outSlots overlap => s.onBind inBytes outSlots overlap
  | .request q d => transact q d s
  | .reset => s.onReset

/-- The next action of the outside is taken; with none, the block waits in the state it is in (10_state.md rule R22;
assumption entry 4). -/
def nextState (s : State) : State :=
  match s.pending with
  | [] => s
  | e :: rest => handleEvent e { s with pending := rest }

end Sys2Proof.Machine
end

