-- ==== Sys2Proof/Machine/Step.lean ====
section
/-! DEFINITION. One step of the machine: one action of the outside, which for a request is one atomic transaction
(20_memory.md rule R34). -/

namespace Sys2Proof.Machine

/-- A step always has a next state: every failure, fault and refusal of a transaction leaves one (60_exceptions.md rules R90,
R91 and R93), with its mark in `faulted` or `refused`. -/
def step (s : State) : Host.Outcome State Fault Refusal := .next (nextState s)

/-- `s` with the request word of `w` as the next action of the outside (assumption entry 4). -/
def State.withFetchWord (s : State) (nbits w : Nat) : State :=
  { s with pending := .request (tableWord nbits w) .undisturbed :: s.pending }

end Sys2Proof.Machine
end

