-- ==== Sys2Proof/Machine/Assembler.lean ====
section
/-! DEFINITION. The assembler syntax of 30_encoding.md rule R56, on operand tokens: what request a line stands for. The text
of a line is the matter of AsmText. -/

namespace Sys2Proof.Machine

/-- The four mnemonics; the source's names (Validate, ConvertChar, ConvertWord, ConvertNum) are synonyms and give the same
token (30_encoding.md rule R56). -/
inductive Mnemonic where
  | validate
  | convchar
  | convword
  | convnum
  deriving DecidableEq, Repr

/-- An operand token (30_encoding.md rule R56). -/
inductive Operand where
  /-- A quoted character or a byte in hexadecimal. -/
  | char (c : Byte)
  /-- `OUT`. -/
  | out
  /-- `IN`. -/
  | inp
  /-- `NULL`: the buffer is absent. -/
  | null
  /-- `DEFAULT`: no explicit bound. -/
  | default
  /-- A decimal number, signed for `val`. -/
  | num (v : Int)
  deriving DecidableEq, Repr

/-- `out` is `OUT` (OUTP = 1) or `NULL` (OUTP = 0). -/
def asmOut : Operand → Option Bool
  | .out => some true
  | .null => some false
  | .char _ => none
  | .inp => none
  | .default => none
  | .num _ => none

/-- `in` is `IN` (INP = 1) or `NULL` (INP = 0). -/
def asmIn : Operand → Option Bool
  | .inp => some true
  | .null => some false
  | .char _ => none
  | .out => none
  | .default => none
  | .num _ => none

/-- A decimal number 0..65535, for `len` and `cap`. -/
def asmLen (v : Int) : Option Len := if 0 ≤ v ∧ v ≤ 65535 then some (BitVec.ofInt 16 v) else none

/-- A decimal signed number in the range of 30_encoding.md rule R46, for `val`. -/
def asmVal (v : Int) : Option Val :=
  if -9223372036854775808 ≤ v ∧ v ≤ 9223372036854775807 then some (BitVec.ofInt 64 v) else none

/-- The request of a line: `VALIDATE ch`, `CONVCHAR ch, out`, `CONVWORD in, len, out`, `CONVNUM val, out, cap`
(30_encoding.md rule R56); `none` for any other line. -/
def assemble : Mnemonic → List Operand → Option Instr
  | .validate, [.char c] => some (.validate c)
  | .convchar, [.char c, o] => (asmOut o).map fun outp => .convchar outp c
  | .convword, [i, .default, o] =>
    (asmIn i).bind fun inp => (asmOut o).map fun outp => .convword outp inp false 0#16
  | .convword, [i, .num k, o] =>
    (asmIn i).bind fun inp => (asmLen k).bind fun n => (asmOut o).map fun outp => .convword outp inp true n
  | .convnum, [.num v, o, .num k] =>
    (asmVal v).bind fun val => (asmOut o).bind fun outp => (asmLen k).map fun cap => .convnum outp cap val
  | _, _ => none

end Sys2Proof.Machine
end

