-- ==== Sys2Proof/Safety.lean ====
section
/-! DEFINITION. The terms claims are stated in: the invariant of a run, an unmarked run, the frame of a transaction, and what
the caller must give a request (20_memory.md rule R26). -/

namespace Sys2Proof.Machine

/-- The invariant of a run: both buffers have the canonical form, the ROM holds what the configuration puts there (10_state.md
rule R18), and an instance with an illegal configuration is refused (60_exceptions.md rule R94). -/
structure State.Inv (s : State) : Prop where
  inWf  : s.inBuf.wf = true
  outWf : s.outBuf.wf = true
  romEq : s.rom = romOf s.cfg
  legal : cfgLegal s.cfg = true ∨ s.refused = some .illegalConfig

/-- The invariant of an instance that elaboration did not refuse. -/
structure State.Sound (s : State) : Prop where
  romEq : s.rom = romOf s.cfg
  legal : cfgLegal s.cfg = true

/-- A run without a mark: the runs that claims cover (60_exceptions.md rules R91 and R93). -/
def State.Unmarked (s : State) : Prop := s.faulted = none ∧ s.refused = none

/-- OUT_LEN or IN_LEN is at least `k`: every index below `k` exists (20_memory.md rule R26). -/
def Memory.Covers (m : Memory) (k : Nat) : Prop := ∀ j, j < k → (m.read j).isSome = true

/-- Only OUT, the response and the recorded class differ, and OUT has the same indices: the frame of a transaction that gives a
response (10_state.md rules R17, R18, R20). -/
def OnlyOutputs (s t : State) : Prop :=
  t = { s with outBuf := t.outBuf, rsp := t.rsp, cls := t.cls } ∧
    t.outBuf.map Prod.fst = s.outBuf.map Prod.fst

/-- The characters at the indices below `k` are read, are no terminator, are in range, and have a slot: a CONVWORD converts
them all (42_word.md rule R77). -/
def ConvertsUpTo (s : State) (k : Nat) : Prop :=
  ∀ j, j < k → ∃ c, s.inBuf.read j = some c ∧ c ≠ nulChar ∧ inRange s.cfg.range c = true ∧
    (s.outBuf.read j).isSome = true

/-- What the caller must give a request so that every access stays inside the buffers: `OUT_LEN >= 1` for CONVCHAR,
`CAP <= OUT_LEN` for CONVNUM, and for CONVWORD buffers as long as the bound (20_memory.md rule R26). -/
def CallerDuty (s : State) : Instr → Prop
  | .validate _ => True
  | .convchar outp _ => outp = true → s.outBuf.Covers 1
  | .convword outp inp leng n =>
    outp = true → inp = true → s.inBuf.Covers (wordBound s.cfg leng n) ∧ s.outBuf.Covers (wordBound s.cfg leng n)
  | .convnum outp cap _ => outp = true → s.outBuf.Covers cap.toNat

end Sys2Proof.Machine
end

