-- ==== Sys2Proof/Certificates/Slice0/Obligations.lean ====
section
/-! DEFINITION. The statements for the provers. A response word is written as its value: `1#32` is OK = 1, `0#32` is OK = 0 with
COUNT = 0, and `65536 * k` is COUNT = k (30_encoding.md rule R53). -/

open Sys2Proof Sys2Proof.Machine

/-! ## Encoding -/

/-- 30_encoding.md sections 3 and 6: the decoder reads back every well-formed request from its word. -/
def Obligations.DecodeEncodeRoundTrip : Prop :=
  ∀ i : Instr, i.WellFormed → decode (encode i) = .ok i

/-- What the decoder gives is well formed, and its word decodes to it again. For a CONVWORD with LENG = 0 it is so because the
decoder reads N as 0, the model's choice (assumption entry 15; 30_encoding.md rules R50 and R56). -/
def Obligations.DecodedRequestsAreWellFormed : Prop :=
  ∀ (q : Req) (i : Instr), decode q = .ok i → i.WellFormed ∧ decode (encode i) = .ok i

/-- 30_encoding.md rule R48: the places of the fields in the request word. -/
def Obligations.RequestWordLayout : Prop :=
  ∀ q : Req, q.toNat =
    (Req.op q).toNat + 4 * (Req.outp q).toNat + 8 * (Req.inp q).toNat + 16 * (Req.leng q).toNat +
      32 * (Req.reserved q).toNat + 256 * (Req.ch q).toNat + 65536 * (Req.n q).toNat + 4294967296 * (Req.val q).toNat

/-- 30_encoding.md rule R55, with the mask 0xE3 and the match of each row of the opcode table. -/
def Obligations.OperationSelectedByOp : Prop :=
  ∀ q : Req,
    (q &&& 0xE3#96 = 0x00#96 → decode q = .ok (.validate (Req.ch q))) ∧
    (q &&& 0xE3#96 = 0x01#96 → decode q = .ok (.convchar (Req.outp q) (Req.ch q))) ∧
    (q &&& 0xE3#96 = 0x02#96 → ∃ n, decode q = .ok (.convword (Req.outp q) (Req.inp q) (Req.leng q) n) ∧
      (Req.leng q = true → n = Req.n q)) ∧
    (q &&& 0xE3#96 = 0x03#96 → decode q = .ok (.convnum (Req.outp q) (Req.n q) (Req.val q))) ∧
    (q &&& 0xE0#96 ≠ 0#96 → decode q = .error .reservedBits)

/-- 30_encoding.md rule R50: a field the operation does not use has no effect on the transaction. -/
def Obligations.UnusedFieldsIgnored : Prop :=
  ∀ (q q' : Req) (d : Interference) (s : State),
    Req.reserved q = Req.reserved q' → Req.op q = Req.op q' →
    ((Req.op q = 0b00#2 ∨ Req.op q = 0b01#2) → Req.ch q = Req.ch q') →
    (Req.op q ≠ 0b00#2 → Req.outp q = Req.outp q') →
    (Req.op q = 0b10#2 → Req.inp q = Req.inp q' ∧ Req.leng q = Req.leng q') →
    ((Req.op q = 0b10#2 ∧ Req.leng q = true ∨ Req.op q = 0b11#2) → Req.n q = Req.n q') →
    (Req.op q = 0b11#2 → Req.val q = Req.val q') →
    transact q d s = transact q' d s

/-- Request words of 95_test_vectors.md decode to the requests they stand for there. -/
def Obligations.KnownRequestWords : Prop :=
  decode 0x00000000000000000000C100#96 = .ok (.validate 0xC1#8) ∧
  decode 0xFFFFFFFFFFFFFFFB0007411C#96 = .ok (.validate 0x41#8) ∧
  decode 0x000000000000000000004105#96 = .ok (.convchar true 0x41#8) ∧
  decode 0x000000000000000000002001#96 = .ok (.convchar false 0x20#8) ∧
  decode 0x00000000000000000003001E#96 = .ok (.convword true true true 3#16) ∧
  decode 0x00000000000000000000000E#96 = .ok (.convword true true false 0#16) ∧
  decode 0xFFFFFFFFFFFFFFD600030007#96 = .ok (.convnum true 3#16 (BitVec.ofInt 64 (-42))) ∧
  decode 0x000000000000000700030003#96 = .ok (.convnum false 3#16 7#64) ∧
  decode 0x000000000000000100034187#96 = .error .reservedBits

/-- 30_encoding.md rule R51, with at most one disturbance (assumption entry 21): a request with reserved bits writes nothing, gives no response and sets
the refusal mark. For a disturbed request this is the model's choice: the refusal is taken although a reset arrives (assumption
entry 14), ReservedBits is the reason recorded where two refusals apply (entry 10), and the first reason stays (entry 8). -/
def Obligations.ReservedBitsRefused : Prop :=
  ∀ (q : Req) (d : Interference) (s : State), Req.reserved q ≠ 0#3 →
    (transact q d s).outBuf = s.outBuf ∧ (transact q d s).inBuf = s.inBuf ∧ (transact q d s).rsp = none ∧
    (transact q d s).refused.isSome = true ∧
    (s.refused = none → (transact q d s).refused = some .reservedBits)

/-- 30_encoding.md rule R56: every request the syntax can write is well formed and its word decodes to it, and every well-formed
request can be written. -/
def Obligations.AssemblyCoversWellFormedRequests : Prop :=
  (∀ (m : Mnemonic) (ops : List Operand) (i : Instr), assemble m ops = some i →
    i.WellFormed ∧ decode (encode i) = .ok i) ∧
  (∀ i : Instr, i.WellFormed → ∃ m ops, assemble m ops = some i)

/-! ## Ranges, GLYPH and the Table Provider -/

/-- 40_table_provider.md rules R57 and R58: the three sets, their sizes, that they are nested, and that the terminator, the
space and every byte from 0x80 on are in none of them. -/
def Obligations.RangeSets : Prop :=
  (∀ c : Byte, inRange .digits c = true ↔ (0x30 ≤ c.toNat ∧ c.toNat ≤ 0x39) ∨ c = 0x2D#8) ∧
  (∀ c : Byte, inRange .digitsErr c = true ↔
    inRange .digits c = true ∨ c ∈ [0x45#8, 0x65#8, 0x52#8, 0x72#8, 0x4F#8, 0x6F#8]) ∧
  (∀ c : Byte, inRange .full c = true ↔
    (0x30 ≤ c.toNat ∧ c.toNat ≤ 0x39) ∨ (0x61 ≤ c.toNat ∧ c.toNat ≤ 0x7A) ∨ (0x41 ≤ c.toNat ∧ c.toNat ≤ 0x5A) ∨
    c ∈ [0x28#8, 0x29#8, 0x5B#8, 0x5D#8, 0x5F#8, 0x2D#8, 0x7C#8, 0x3D#8, 0x3E#8, 0x3C#8]) ∧
  (∀ c : Byte, inRange .digits c = true → inRange .digitsErr c = true) ∧
  (∀ c : Byte, inRange .digitsErr c = true → inRange .full c = true) ∧
  (allBytes.filter (inRange .digits)).length = 11 ∧ (allBytes.filter (inRange .digitsErr)).length = 17 ∧
  (allBytes.filter (inRange .full)).length = 72 ∧
  ∀ r : Range, inRange r 0x00#8 = false ∧ inRange r 0x20#8 = false ∧ ∀ c : Byte, c.getLsbD 7 = true → inRange r c = false

/-- 40_table_provider.md rules R62 and R69: DEFAULT_GLYPH and H_DEFAULT satisfy the constraints on GLYPH and H. -/
def Obligations.DefaultsAreAdmissible : Prop :=
  (∀ c : Byte, inRange .full c = false → slotOf defaultGlyph c = 0x00#8) ∧
  (∀ c : Byte, (slotOf defaultGlyph c).getLsbD 7 = false) ∧
  slotOf defaultGlyph 0x45#8 ≠ slotOf defaultGlyph 0x65#8 ∧ slotOf defaultGlyph 0x52#8 ≠ slotOf defaultGlyph 0x72#8 ∧
  slotOf defaultGlyph 0x4F#8 ≠ slotOf defaultGlyph 0x6F#8 ∧
  [hDefault 0x52#8, hDefault 0x72#8, hDefault 0x45#8, hDefault 0x65#8, hDefault 0x4F#8, hDefault 0x6F#8] =
    [0#8, 1#8, 2#8, 3#8, 4#8, 5#8]

/-- 60_exceptions.md rule R94: which configurations elaboration refuses, and that a refused instance processes no request. -/
def Obligations.IllegalConfigurationsRefused : Prop :=
  (∀ cfg : Cfg, (State.elaborate cfg).refused = some .illegalConfig ↔
    (cfg.range = .full ∧ cfg.strategy = .computed) ∨
    ¬ ((∀ c : Byte, inRange .full c = false → glyphOf cfg c = 0x00#8) ∧ (∀ c : Byte, (glyphOf cfg c).getLsbD 7 = false) ∧
       glyphOf cfg 0x45#8 ≠ glyphOf cfg 0x65#8 ∧ glyphOf cfg 0x52#8 ≠ glyphOf cfg 0x72#8 ∧
       glyphOf cfg 0x4F#8 ≠ glyphOf cfg 0x6F#8) ∨
    ¬ ([cfg.errIndex.upperE, cfg.errIndex.lowerE, cfg.errIndex.upperR, cfg.errIndex.lowerR, cfg.errIndex.upperO,
         cfg.errIndex.lowerO].Nodup ∧
       cfg.errIndex.upperE < 6 ∧ cfg.errIndex.lowerE < 6 ∧ cfg.errIndex.upperR < 6 ∧ cfg.errIndex.lowerR < 6 ∧
       cfg.errIndex.upperO < 6 ∧ cfg.errIndex.lowerO < 6)) ∧
  (∀ (s : State) (q : Req) (d : Interference), s.refused = some .illegalConfig →
    (transact q d s).rsp = none ∧ (transact q d s).outBuf = s.outBuf ∧ (transact q d s).inBuf = s.inBuf ∧
    (transact q d s).faulted = s.faulted ∧ (transact q d s).refused = some .illegalConfig)

/-- 40_table_provider.md rules R64, R66 and R67, 10_state.md rule R18: the contents of the encoding ROM. -/
def Obligations.EncodingRomContents : Prop :=
  ∀ cfg : Cfg,
    (cfg.strategy = .computed → romOf cfg = []) ∧
    (cfg.strategy = .table → cfg.range = .full → (romOf cfg).length = 256 ∧
      ∀ c : Byte, (romOf cfg)[c.toNat]? = some (glyphOf cfg c)) ∧
    (cfg.strategy = .table → cfg.range = .digits → (romOf cfg).length = 11 ∧
      (∀ k, k < 10 → (romOf cfg)[k]? = some (glyphOf cfg (BitVec.ofNat 8 (0x30 + k)))) ∧
      (romOf cfg)[10]? = some (glyphOf cfg 0x2D#8)) ∧
    (cfg.strategy = .table → cfg.range = .digitsErr → errIndexAdmissible cfg.errIndex = true →
      (romOf cfg).length = 17 ∧
      (∀ k, k < 10 → (romOf cfg)[k]? = some (glyphOf cfg (BitVec.ofNat 8 (0x30 + k)))) ∧
      (romOf cfg)[10 + cfg.errIndex.upperE]? = some (glyphOf cfg 0x45#8) ∧
      (romOf cfg)[10 + cfg.errIndex.lowerE]? = some (glyphOf cfg 0x65#8) ∧
      (romOf cfg)[10 + cfg.errIndex.upperR]? = some (glyphOf cfg 0x52#8) ∧
      (romOf cfg)[10 + cfg.errIndex.lowerR]? = some (glyphOf cfg 0x72#8) ∧
      (romOf cfg)[10 + cfg.errIndex.upperO]? = some (glyphOf cfg 0x4F#8) ∧
      (romOf cfg)[10 + cfg.errIndex.lowerO]? = some (glyphOf cfg 0x6F#8) ∧
      (romOf cfg)[16]? = some (glyphOf cfg 0x2D#8))

/-- 40_table_provider.md rule R71: Strategy A and Strategy B agree with each other and with GLYPH wherever both are legal. -/
def Obligations.StrategiesEquivalent : Prop :=
  ∀ (cfg : Cfg) (c : Byte), cfg.range ≠ .full → glyphAdmissible cfg.glyph = true →
    errIndexAdmissible cfg.errIndex = true → inRange cfg.range c = true →
    provideTable { cfg with strategy := .table } (romOf { cfg with strategy := .table }) c = some (glyphOf cfg c) ∧
    computedSlot { cfg with strategy := .computed } c = glyphOf cfg c

/-- 40_table_provider.md section 3: under every legal configuration the provider gives `GLYPH(c)` for a member c of the active
set and nothing for another byte. -/
def Obligations.ProviderGivesGlyph : Prop :=
  ∀ (cfg : Cfg) (c : Byte), cfgLegal cfg = true →
    (inRange cfg.range c = true → provide cfg (romOf cfg) c = some (glyphOf cfg c)) ∧
    (inRange cfg.range c = false → provide cfg (romOf cfg) c = none)

/-- 00_scope.md rule R11 (and rules R10, 40_table_provider.md R68 for the other two): STRATEGY, FLAT_VIEW and H change no
outcome, no response and no buffer. -/
def Obligations.StrategyUnobservable : Prop :=
  ∀ (i : Instr) (s : State) (cfg : Cfg), s.Sound → cfgLegal cfg = true → cfg.range = s.cfg.range →
    cfg.maxWordLen = s.cfg.maxWordLen → cfg.glyph = s.cfg.glyph →
    match exec i s with
    | .next t => exec i { s with cfg := cfg, rom := romOf cfg } = .next { t with cfg := cfg, rom := romOf cfg }
    | .fault f => exec i { s with cfg := cfg, rom := romOf cfg } = .fault f
    | .refused r => exec i { s with cfg := cfg, rom := romOf cfg } = .refused r

/-- 30_encoding.md rule R42: the views of a slot are projections of the one slot value. -/
def Obligations.SlotViewsAreProjections : Prop :=
  ∀ s : Slot,
    structuredView s = ⟨s.getLsbD 0, s.getLsbD 1, s.getLsbD 2, s.getLsbD 3, s.getLsbD 4, s.getLsbD 5, s.getLsbD 6⟩ ∧
    (boolArrayView s).toList =
      [s.getLsbD 0, s.getLsbD 1, s.getLsbD 2, s.getLsbD 3, s.getLsbD 4, s.getLsbD 5, s.getLsbD 6] ∧
    packedView s = s

/-! ## VALIDATE and CONVCHAR -/

/-- 41_character.md, VALIDATE: OK is membership in the active range, and nothing but the response changes. -/
def Obligations.ValidateAnswersMembership : Prop :=
  ∀ (c : Byte) (s : State), exec (.validate c) s =
    .next { s with rsp := some (if inRange s.cfg.range c = true then 1#32 else 0#32), cls := some .noFailure }

/-- 41_character.md rule R75: the round-trip and rejection properties. -/
def Obligations.ConvcharRoundTripAndRejection : Prop :=
  ∀ (s : State) (c : Byte), s.Sound →
    (inRange s.cfg.range c = true → s.outBuf.Covers 1 →
      ∃ t, exec (.convchar true c) s = .next t ∧ t.rsp = some 1#32 ∧ t.outBuf.read 0 = some (glyphOf s.cfg c)) ∧
    (inRange s.cfg.range c = false → s.outBuf.Covers 1 →
      ∃ t, exec (.convchar true c) s = .next t ∧ t.rsp = some 0#32 ∧ t.outBuf.read 0 = some 0x00#8) ∧
    (∃ t, exec (.convchar false c) s = .next t ∧ t.rsp = some 0#32) ∧
    (s.outBuf.Covers 1 →
      ∃ t u, exec (.convchar true c) s = .next t ∧ exec (.validate c) s = .next u ∧ t.rsp = u.rsp)

/-- 41_character.md, CONVCHAR, and 60_exceptions.md section 1: the class recorded, and that a null output changes no buffer. -/
def Obligations.ConvcharFailureClasses : Prop :=
  ∀ (s : State) (c : Byte), s.Sound →
    exec (.convchar false c) s = .next { s with rsp := some 0#32, cls := some .invalidArgument } ∧
    (s.outBuf.Covers 1 → ∃ t, exec (.convchar true c) s = .next t ∧
      t.cls = some (if inRange s.cfg.range c = true then .noFailure else .unsupportedCharacter))

/-- 41_character.md, CONVCHAR: its frame. With an output present only `OUT[0]` may change, without one no slot does. -/
def Obligations.ConvcharFrame : Prop :=
  ∀ (outp : Bool) (c : Byte) (s t : State), exec (.convchar outp c) s = .next t →
    OnlyOutputs s t ∧ ∀ a, (outp = false ∨ a ≠ 0) → t.outBuf.read a = s.outBuf.read a

/-- 20_memory.md rule R26 for CONVCHAR: with an output present and OUT_LEN = 0 the write of `OUT[0]` faults, whether the
character is supported or not. -/
def Obligations.ConvcharFaultsWithoutSlot : Prop :=
  ∀ (c : Byte) (s : State), s.Sound → s.outBuf.read 0 = none → exec (.convchar true c) s = .fault .outOfBuffer

/-! ## CONVWORD -/

/-- 42_word.md rule R76: the bound is N as given with LENG = 1 and MAX_WORD_LEN otherwise. -/
def Obligations.WordBoundRule : Prop :=
  ∀ (cfg : Cfg) (n : Len) (s : State) (outp inp : Bool),
    wordBound cfg true n = n.toNat ∧ wordBound cfg false n = cfg.maxWordLen.toNat ∧
    exec (.convword outp inp false n) s = exec (.convword outp inp true s.cfg.maxWordLen) s

/-- 42_word.md rule R79 item 1: a null input, a null output or a bound of 0 gives COUNT = 0 and touches no buffer. That a
CONVWORD with a null buffer answers also when the bound buffers overlap is the model's inference (assumption entry 16). -/
def Obligations.ConvwordNullOrZeroLength : Prop :=
  ∀ (s : State) (outp inp leng : Bool) (n : Len),
    (outp = false ∨ inp = false ∨ wordBound s.cfg leng n = 0 ∧ s.overlap = false) →
    exec (.convword outp inp leng n) s = .next { s with rsp := some 0#32, cls := some .invalidArgument }

/-- 42_word.md, CONVWORD, stopped by the bound: every character below L is converted, COUNT = L, `IN[L]` is not read. -/
def Obligations.ConvwordStopsAtBound : Prop :=
  ∀ (s : State) (leng : Bool) (n : Len), s.Sound → s.overlap = false → 0 < wordBound s.cfg leng n →
    ConvertsUpTo s (wordBound s.cfg leng n) →
    ∃ t, exec (.convword true true leng n) s = .next t ∧ OnlyOutputs s t ∧
      t.rsp = some (BitVec.ofNat 32 (65536 * wordBound s.cfg leng n)) ∧ t.cls = some .noFailure ∧
      (∀ j c, j < wordBound s.cfg leng n → s.inBuf.read j = some c → t.outBuf.read j = some (glyphOf s.cfg c)) ∧
      ∀ j, wordBound s.cfg leng n ≤ j → t.outBuf.read j = s.outBuf.read j

/-- 42_word.md, CONVWORD, stopped by the terminator at index k: COUNT = k, and `OUT[k]` is not written. -/
def Obligations.ConvwordStopsAtTerminator : Prop :=
  ∀ (s : State) (leng : Bool) (n : Len) (k : Nat), s.Sound → s.overlap = false → k < wordBound s.cfg leng n →
    ConvertsUpTo s k → s.inBuf.read k = some 0x00#8 →
    ∃ t, exec (.convword true true leng n) s = .next t ∧ OnlyOutputs s t ∧
      t.rsp = some (BitVec.ofNat 32 (65536 * k)) ∧ t.cls = some .noFailure ∧
      (∀ j c, j < k → s.inBuf.read j = some c → t.outBuf.read j = some (glyphOf s.cfg c)) ∧
      ∀ j, k ≤ j → t.outBuf.read j = s.outBuf.read j

/-- 42_word.md, CONVWORD, stopped by an unsupported character at index k: COUNT = k, and `OUT[k]` holds 0x00 (rule R78). -/
def Obligations.ConvwordStopsAtUnsupported : Prop :=
  ∀ (s : State) (leng : Bool) (n : Len) (k : Nat) (c : Byte), s.Sound → s.overlap = false →
    k < wordBound s.cfg leng n → ConvertsUpTo s k → s.inBuf.read k = some c → c ≠ 0x00#8 →
    inRange s.cfg.range c = false → (s.outBuf.read k).isSome = true →
    ∃ t, exec (.convword true true leng n) s = .next t ∧ OnlyOutputs s t ∧
      t.rsp = some (BitVec.ofNat 32 (65536 * k)) ∧ t.cls = some .unsupportedCharacter ∧
      (∀ j c', j < k → s.inBuf.read j = some c' → t.outBuf.read j = some (glyphOf s.cfg c')) ∧
      t.outBuf.read k = some 0x00#8 ∧
      ∀ j, k < j → t.outBuf.read j = s.outBuf.read j

/-- 42_word.md rule R79 items 2 and 3, over every state: what OUT holds after a CONVWORD with a given COUNT. -/
def Obligations.ConvwordSlotsAfterCount : Prop :=
  ∀ (s t : State) (outp inp leng : Bool) (n : Len) (w : Rsp), s.Sound →
    exec (.convword outp inp leng n) s = .next t → t.rsp = some w →
    (countOf w).toNat ≤ wordBound s.cfg leng n ∧
    (∀ j, j < (countOf w).toNat → ∃ c, s.inBuf.read j = some c ∧ inRange s.cfg.range c = true ∧
      t.outBuf.read j = some (glyphOf s.cfg c)) ∧
    (t.outBuf.read (countOf w).toNat = s.outBuf.read (countOf w).toNat ∨
      t.outBuf.read (countOf w).toNat = some 0x00#8 ∧ ∃ c, s.inBuf.read (countOf w).toNat = some c ∧ c ≠ 0x00#8 ∧
        inRange s.cfg.range c = false) ∧
    ∀ j, (countOf w).toNat < j → t.outBuf.read j = s.outBuf.read j

/-- 20_memory.md rule R26 for CONVWORD: a read past IN and a write past OUT fault at the index where the scan reaches them. -/
def Obligations.ConvwordFaultsPastBuffers : Prop :=
  ∀ (s : State) (leng : Bool) (n : Len) (k : Nat), s.Sound → s.overlap = false → k < wordBound s.cfg leng n →
    ConvertsUpTo s k →
    (s.inBuf.read k = none ∨ (∃ c, s.inBuf.read k = some c ∧ c ≠ 0x00#8) ∧ s.outBuf.read k = none) →
    exec (.convword true true leng n) s = .fault .outOfBuffer

/-- 42_word.md rule R79 item 5: an instance with a narrower range never gives a larger COUNT. -/
def Obligations.NarrowerRangeCountsNoMore : Prop :=
  ∀ (s t t' : State) (cfg : Cfg) (outp inp leng : Bool) (n : Len) (w w' : Rsp), s.Sound → cfgLegal cfg = true →
    cfg.maxWordLen = s.cfg.maxWordLen → (∀ c, inRange s.cfg.range c = true → inRange cfg.range c = true) →
    exec (.convword outp inp leng n) s = .next t →
    exec (.convword outp inp leng n) { s with cfg := cfg, rom := romOf cfg } = .next t' →
    t.rsp = some w → t'.rsp = some w' → (countOf w).toNat ≤ (countOf w').toNat

/-- 20_memory.md rule R30, the IN column: a CONVWORD depends on no IN byte past index min(COUNT, L - 1), and no other operation
depends on IN. -/
def Obligations.InputReadFootprint : Prop :=
  (∀ (s t : State) (m : Memory) (outp inp leng : Bool) (n : Len) (w : Rsp),
    exec (.convword outp inp leng n) s = .next t → t.rsp = some w →
    (∀ j, j ≤ (countOf w).toNat → j < wordBound s.cfg leng n → m.read j = s.inBuf.read j) →
    exec (.convword outp inp leng n) { s with inBuf := m } = .next { t with inBuf := m }) ∧
  (∀ (i : Instr) (s t : State) (m : Memory), (∀ outp inp leng n, i ≠ .convword outp inp leng n) →
    exec i s = .next t → exec i { s with inBuf := m } = .next { t with inBuf := m })

/-- 70_reset_and_hazards.md rule R115: a CONVWORD whose buffers overlap is refused, and this is the only refusal of `exec`
(for a request whose presence bits are both 1: assumption entry 16). -/
def Obligations.OverlapRefusedForConvwordOnly : Prop :=
  (∀ (s : State) (leng : Bool) (n : Len), s.overlap = true →
    exec (.convword true true leng n) s = .refused .bufferOverlap) ∧
  (∀ (i : Instr) (s : State) (r : Refusal), exec i s = .refused r →
    r = .bufferOverlap ∧ s.overlap = true ∧ ∃ leng n, i = .convword true true leng n)

/-! ## CONVNUM and the digit extractor -/

/-- 43_number.md rule R80: the magnitude is the exact absolute value, also for INT64_MIN. -/
def Obligations.MagnitudeIsAbsoluteValue : Prop :=
  (∀ v : Val, magnitude v = (if v.toInt < 0 then 0#64 - v else v) ∧ (magnitude v).toNat = v.toInt.natAbs ∧
    (magnitude v).toNat ≤ 2 ^ 63) ∧
  (magnitude (BitVec.ofInt 64 (-9223372036854775808))).toNat = 9223372036854775808

/-- 43_number.md section 1: every power of ten of the table fits in 64 bits. -/
def Obligations.PowersOfTenFit : Prop :=
  ∀ k, k ≤ 19 → pow10 k = 10 ^ k ∧ pow10 k < 2 ^ 64

/-- 43_number.md rule R82: the digit count is the least d in 1..19 with `m < 10^d`. -/
def Obligations.DigitCountIsLeast : Prop :=
  digitCount 0 = 1 ∧
  ∀ m, m ≤ 2 ^ 63 → 1 ≤ digitCount m ∧ digitCount m ≤ 19 ∧ m < 10 ^ digitCount m ∧
    (∀ d, 1 ≤ d → d < digitCount m → 10 ^ d ≤ m) ∧
    (m < 10 → digitCount m = 1) ∧
    (∀ k, 2 ≤ k → k ≤ 19 → 10 ^ (k - 1) ≤ m → m < 10 ^ k → digitCount m = k)

/-- 43_number.md, rule R85's algorithm: the comparison chain counts the digits, and a number below 10 is its own digit. -/
def Obligations.ComparisonChainCountsDigits : Prop :=
  ∀ m, m ≤ 2 ^ 63 → digitChain m 18 1 = digitCount m ∧ (m < 10 → digitText m = [BitVec.ofNat 8 (0x30 + m)])

/-- 43_number.md rule R83: the required length, between 1 and 20. -/
def Obligations.RequiredLengthBounds : Prop :=
  (∀ v : Val, requiredLen v = digitCount v.toInt.natAbs + (if v.toInt < 0 then 1 else 0) ∧
    1 ≤ requiredLen v ∧ requiredLen v ≤ 20) ∧
  requiredLen (BitVec.ofInt 64 9223372036854775807) = 19 ∧ requiredLen (BitVec.ofInt 64 (-9223372036854775808)) = 20

/-- 43_number.md rule R84: the digits spell the magnitude, with no leading zero. -/
def Obligations.DigitsSpellMagnitude : Prop :=
  ∀ m, m ≤ 2 ^ 63 →
    (∀ j, j < digitCount m → digit m j = m / 10 ^ (digitCount m - 1 - j) % 10 ∧ digit m j ≤ 9) ∧
    (digit m 0 = 0 → m = 0) ∧
    ((List.range (digitCount m)).map fun j => digit m j * 10 ^ (digitCount m - 1 - j)).sum = m

/-- 43_number.md rule R88 item 3: the text CONVNUM displays tells the operand; two operands with one text are equal. -/
def Obligations.DecimalTextDeterminesOperand : Prop :=
  ∀ v v' : Val, numText v = numText v' → v = v'

/-- 43_number.md, CONVNUM: with an output, a sufficient capacity and a slot for every position it succeeds, writes the sign and
the digits, and no other slot. -/
def Obligations.ConvnumWritesDecimalText : Prop :=
  ∀ (s : State) (cap : Len) (v : Val), s.Sound → requiredLen v ≤ cap.toNat → s.outBuf.Covers (requiredLen v) →
    ∃ t, exec (.convnum true cap v) s = .next t ∧ OnlyOutputs s t ∧ t.rsp = some 1#32 ∧ t.cls = some .noFailure ∧
      (0 ≤ v.toInt → ∀ j, j < requiredLen v →
        t.outBuf.read j = some (glyphOf s.cfg (BitVec.ofNat 8 (0x30 + digit v.toInt.natAbs j)))) ∧
      (v.toInt < 0 → t.outBuf.read 0 = some (glyphOf s.cfg 0x2D#8) ∧
        ∀ j, j + 1 < requiredLen v →
          t.outBuf.read (j + 1) = some (glyphOf s.cfg (BitVec.ofNat 8 (0x30 + digit v.toInt.natAbs j)))) ∧
      ∀ j, requiredLen v ≤ j → t.outBuf.read j = s.outBuf.read j

/-- 43_number.md rule R87: the three failure tests in their order; each gives OK = 0 and writes nothing. -/
def Obligations.ConvnumFailureOrder : Prop :=
  ∀ (s : State) (cap : Len) (v : Val),
    exec (.convnum false cap v) s = .next { s with rsp := some 0#32, cls := some .invalidArgument } ∧
    exec (.convnum true 0#16 v) s = .next { s with rsp := some 0#32, cls := some .invalidArgument } ∧
    (cap ≠ 0#16 → cap.toNat < requiredLen v →
      exec (.convnum true cap v) s = .next { s with rsp := some 0#32, cls := some .bufferTooSmall })

/-- 43_number.md rule R88 items 1 and 4, over every state: OK exactly with an output and a sufficient capacity; otherwise no
slot is written. -/
def Obligations.ConvnumAllOrNothing : Prop :=
  ∀ (s t : State) (outp : Bool) (cap : Len) (v : Val), exec (.convnum outp cap v) s = .next t →
    (t.rsp = some 1#32 ↔ outp = true ∧ requiredLen v ≤ cap.toNat) ∧
    (t.rsp ≠ some 1#32 → t.rsp = some 0#32 ∧ t.outBuf = s.outBuf) ∧
    OnlyOutputs s t ∧ ∀ j, requiredLen v ≤ j → t.outBuf.read j = s.outBuf.read j

/-- 20_memory.md rule R26 for CONVNUM: with the capacity given but a slot missing, the write faults. -/
def Obligations.ConvnumFaultsPastOutput : Prop :=
  ∀ (s : State) (cap : Len) (v : Val) (k : Nat), s.Sound → requiredLen v ≤ cap.toNat → k < requiredLen v →
    s.outBuf.read k = none → exec (.convnum true cap v) s = .fault .outOfBuffer

/-- 43_number.md rule R88 item 5: CONVNUM depends on GLYPH, not on RANGE. -/
def Obligations.ConvnumIndependentOfRange : Prop :=
  ∀ (s : State) (cfg : Cfg) (outp : Bool) (cap : Len) (v : Val), s.Sound → cfgLegal cfg = true →
    cfg.glyph = s.cfg.glyph →
    match exec (.convnum outp cap v) s with
    | .next t =>
      exec (.convnum outp cap v) { s with cfg := cfg, rom := romOf cfg } = .next { t with cfg := cfg, rom := romOf cfg }
    | .fault f => exec (.convnum outp cap v) { s with cfg := cfg, rom := romOf cfg } = .fault f
    | .refused r => exec (.convnum outp cap v) { s with cfg := cfg, rom := romOf cfg } = .refused r

/-! ## Every operation -/

/-- 10_state.md rules R17, R18 and R20: a transaction that gives a response changes OUT, the response and the recorded class,
and nothing else. -/
def Obligations.TransactionFrame : Prop :=
  ∀ (i : Instr) (s t : State), exec i s = .next t →
    OnlyOutputs s t ∧ ∀ a, footprint s.cfg i ≤ a → t.outBuf.read a = s.outBuf.read a

/-- 30_encoding.md rule R54: RSP[15:1] is 0, COUNT is 0 for every operation but CONVWORD, OK is 0 for CONVWORD. -/
def Obligations.UndefinedResponseBitsAreZero : Prop :=
  ∀ (i : Instr) (s t : State), exec i s = .next t → ∃ w : Rsp, t.rsp = some w ∧ w.extractLsb' 1 15 = 0#15 ∧
    match i with
    | .validate _ => w.extractLsb' 16 16 = 0#16
    | .convchar _ _ => w.extractLsb' 16 16 = 0#16
    | .convword _ _ _ _ => w.getLsbD 0 = false
    | .convnum _ _ _ => w.extractLsb' 16 16 = 0#16

/-- 30_encoding.md rule R41: bit 7 is 0 in every slot value a transaction writes, and in every value of GLYPH. -/
def Obligations.WrittenSlotsClearReservedBit : Prop :=
  (∀ (cfg : Cfg) (c : Byte), cfgLegal cfg = true → (glyphOf cfg c).getLsbD 7 = false) ∧
  ∀ (i : Instr) (s t : State) (a : Nat), s.Sound → exec i s = .next t →
    t.outBuf.read a = s.outBuf.read a ∨ ∃ v : Slot, t.outBuf.read a = some v ∧ v.getLsbD 7 = false

/-- 20_memory.md section 1 and 42_word.md rule R79 item 4: OUT is never read. Two runs that differ in OUT's contents alone have
the same outcome, response and class, and the same slots written with the same values. -/
def Obligations.OutputNeverRead : Prop :=
  ∀ (i : Instr) (s : State) (m : Memory), m.map Prod.fst = s.outBuf.map Prod.fst →
    match exec i s, exec i { s with outBuf := m } with
    | .next t, .next u => u.rsp = t.rsp ∧ u.cls = t.cls ∧
        ∀ a, t.outBuf.read a = s.outBuf.read a ∧ u.outBuf.read a = m.read a ∨ u.outBuf.read a = t.outBuf.read a
    | .fault f, .fault g => f = g
    | .refused r, .refused q => r = q
    | _, _ => False

/-- 60_exceptions.md, below rule R92's table: InternalInvariant cannot occur. -/
def Obligations.InternalInvariantUnreachable : Prop :=
  ∀ (i : Instr) (s : State), s.Sound → exec i s ≠ .fault .internalInvariant

/-- 20_memory.md section 1: a request whose caller has given long enough buffers never faults. `CallerDuty` asks of a CONVWORD
buffers as long as the bound, more than rule R26; a word that ends before the bound is the matter of ConvwordStopsAtTerminator and
ConvwordStopsAtUnsupported. -/
def Obligations.CallerDutyPreventsFaults : Prop :=
  ∀ (i : Instr) (s : State), s.Sound → CallerDuty s i →
    (∃ t, exec i s = .next t) ∨ (exec i s = .refused .bufferOverlap ∧ s.overlap = true)

/-! ## The run -/

/-- A step takes the next request and runs the decoded instruction: a response is the next state as `exec` gives it, a fault and
a refusal are recorded (60_exceptions.md rules R91 and R93). That the run goes on after them is the model's inference (assumption
entries 7 and 9), and inside `takeFault` and `takeRefusal` the first of two reasons stays (entry 8). -/
def Obligations.StepRunsDecodedRequest : Prop :=
  ∀ (s : State) (q : Req) (i : Instr) (rest : List Event), s.pending = .request q .undisturbed :: rest →
    s.refused ≠ some .illegalConfig → decode q = .ok i →
    match exec i { s with pending := rest } with
    | .next t => step s = .next t
    | .fault f => step s = .next (({ s with pending := rest } : State).takeFault f (footprint s.cfg i))
    | .refused r => step s = .next (({ s with pending := rest } : State).takeRefusal r)

/-- Every step keeps the invariant. -/
def Obligations.StepKeepsInvariant : Prop :=
  ∀ s t : State, s.Inv → step s = .next t → t.Inv

/-- The invariant holds at reset. -/
def Obligations.ResetSatisfiesInvariant : Prop := State.reset.Inv

/-- 10_state.md section 7: at reset no response is pending, both marks are false, and the ROM has its contents; the instance is the one elaboration gives
(the range and the strategy are the spec's defaults, GLYPH is assumption entry 2). -/
def Obligations.ResetValues : Prop :=
  State.reset.rsp = none ∧ State.reset.faulted = none ∧ State.reset.refused = none ∧
  State.reset.cfg.range = .full ∧ State.reset.cfg.strategy = .table ∧
  State.reset.rom = State.reset.cfg.glyph.toList ∧ State.reset.rom.length = 256 ∧
  State.elaborate State.reset.cfg = State.reset

/-- 70_reset_and_hazards.md rule R109: a reset between transactions changes nothing but the pending response, and no request
can tell. -/
def Obligations.ResetChangesNoArchitecturalState : Prop :=
  ∀ (s : State) (rest : List Event), s.pending = .reset :: rest →
    ∃ t, step s = .next t ∧ t.cfg = s.cfg ∧ t.rom = s.rom ∧ t.inBuf = s.inBuf ∧ t.outBuf = s.outBuf ∧ t.rsp = none ∧
      t.faulted = s.faulted ∧ t.refused = s.refused ∧ t.pending = rest ∧
      ∀ (q : Req) (d : Interference), (transact q d t).rsp = (transact q d { s with pending := rest }).rsp ∧
        (transact q d t).outBuf = (transact q d { s with pending := rest }).outBuf

/-- 70_reset_and_hazards.md rule R110: a reset during a transaction that is not refused, be it one that would have answered or one
that would have faulted. No response, no mark set, IN, the configuration and the ROM unchanged, and a slot the operation could not
have written is unchanged; the slots it could have written are given for each operation. (That a refused request is none in
progress is assumption entry 14.) -/
def Obligations.ResetDuringTransaction : Prop :=
  (∀ (s : State) (q : Req) (i : Instr), s.refused ≠ some .illegalConfig → decode q = .ok i →
    (∀ r, exec i s ≠ .refused r) →
    (transact q .resetArrives s).rsp = none ∧ (transact q .resetArrives s).inBuf = s.inBuf ∧
    (transact q .resetArrives s).cfg = s.cfg ∧ (transact q .resetArrives s).rom = s.rom ∧
    (transact q .resetArrives s).faulted = s.faulted ∧ (transact q .resetArrives s).refused = s.refused ∧
    (∀ a, ((transact q .resetArrives s).outBuf.read a).isSome = (s.outBuf.read a).isSome) ∧
    ∀ a, footprint s.cfg i ≤ a → (transact q .resetArrives s).outBuf.read a = s.outBuf.read a) ∧
  (∀ (cfg : Cfg) (c : Byte) (outp inp leng : Bool) (n cap : Len) (v : Val),
    footprint cfg (.validate c) = 0 ∧ footprint cfg (.convchar true c) = 1 ∧ footprint cfg (.convchar false c) = 0 ∧
    footprint cfg (.convword true true leng n) = wordBound cfg leng n ∧
    ((outp = false ∨ inp = false) → footprint cfg (.convword outp inp leng n) = 0) ∧
    footprint cfg (.convnum true cap v) = min cap.toNat 20 ∧ footprint cfg (.convnum false cap v) = 0)

/-- 60_exceptions.md rule R91: a fault gives no response, sets `faulted` and records the reason, leaves every slot the operation
could not write, and is never cleared. A reset that arrives before the fault is ResetDuringTransaction. The model's choices in it:
the first of two reasons stays (assumption entry 8), and a second request leaves the faulting transaction as it is (entry 11). -/
def Obligations.FaultIsRecorded : Prop :=
  ∀ (s : State) (q : Req) (d : Interference) (i : Instr) (f : Fault), s.refused ≠ some .illegalConfig →
    d ≠ .agentAccess → d ≠ .resetArrives → decode q = .ok i → exec i s = .fault f →
    (transact q d s).rsp = none ∧ (transact q d s).faulted.isSome = true ∧
    (s.faulted = none → (transact q d s).faulted = some f) ∧
    (∀ a, footprint s.cfg i ≤ a → (transact q d s).outBuf.read a = s.outBuf.read a) ∧
    (transact q d s).inBuf = s.inBuf ∧
    ∀ e : Event, (handleEvent e (transact q d s)).faulted.isSome = true

/-- 10_state.md rule R21: the marks start false and no step clears them. -/
def Obligations.MarksNeverCleared : Prop :=
  State.reset.Unmarked ∧
  ∀ s t : State, step s = .next t →
    (s.faulted.isSome = true → t.faulted.isSome = true) ∧ (s.refused.isSome = true → t.refused.isSome = true)

/-- 10_state.md rules R17, R18 and R24 of 20_memory.md: no step changes the configuration or the ROM, and only the caller's
binding changes IN or the overlap of the buffers. -/
def Obligations.ConfigurationRomAndInputConstant : Prop :=
  ∀ s t : State, step s = .next t → t.cfg = s.cfg ∧ t.rom = s.rom ∧
    ((∀ xs ys o rest, s.pending ≠ .bind xs ys o :: rest) → t.inBuf = s.inBuf ∧ t.overlap = s.overlap ∧
      t.outBuf.map Prod.fst = s.outBuf.map Prod.fst)

/-- 70_reset_and_hazards.md rules R113 and R114 (with assumption entries 11 and 18, and entry 10 for the reason recorded where a
CONVWORD's buffers overlap as well): a transaction another agent disturbs is refused
whole; a second request is refused and the transaction it meets is as undisturbed. -/
def Obligations.ConcurrentAccessRefused : Prop :=
  (∀ (s : State) (q : Req) (i : Instr), s.refused = none → decode q = .ok i →
    (transact q .agentAccess s).refused = some .concurrentAccess ∧ (transact q .agentAccess s).rsp = none ∧
    (transact q .agentAccess s).outBuf = s.outBuf ∧ (transact q .agentAccess s).inBuf = s.inBuf) ∧
  (∀ (s : State) (q : Req) (i : Instr), s.refused = none → decode q = .ok i →
    (transact q .secondRequest s).refused.isSome = true ∧
    (transact q .secondRequest s).rsp = (transact q .undisturbed s).rsp ∧
    (transact q .secondRequest s).outBuf = (transact q .undisturbed s).outBuf)

/-- 70_reset_and_hazards.md section 2 and 20_memory.md section 1: after the caller binds IN and OUT, index i of each holds the
(i+1)-th byte given, and no other index exists. -/
def Obligations.BoundBuffersHoldTheirBytes : Prop :=
  ∀ (s : State) (xs ys : List Byte) (o : Bool) (rest : List Event), s.pending = .bind xs ys o :: rest →
    ∃ t, step s = .next t ∧ t.overlap = o ∧ t.pending = rest ∧ t.cfg = s.cfg ∧ t.rom = s.rom ∧
      t.faulted = s.faulted ∧ t.refused = s.refused ∧
      ∀ i, t.inBuf.read i = xs[i]? ∧ t.outBuf.read i = ys[i]?
end

