-- ==== Sys2Proof/Laws/Memory.lean ====
section
/-! SUPPORT. The laws of a caller buffer: reading back, what a write leaves alone, and that every operation keeps the canonical
form. -/

namespace Sys2Proof.Machine

theorem Memory.wf_iff (m : Memory) : m.wf = true ↔ m.map Prod.fst = List.range m.length := by
  simp [Memory.wf]

/-- An index is readable exactly when some cell has it. -/
theorem Memory.read_isSome_iff (m : Memory) (i : Nat) : (m.read i).isSome = true ↔ i ∈ m.map Prod.fst := by
  induction m with
  | nil => simp [Memory.read]
  | cons c m ih =>
    obtain ⟨a, v⟩ := c
    simp only [Memory.read, List.map_cons, List.mem_cons] at ih ⊢
    by_cases h : i = a
    · subst h
      simp
    · have h' : (i == a) = false := by simpa using h
      rw [List.lookup_cons, h']
      simp [h, ih]

/-- In the canonical form the readable indices are those below the length. -/
theorem Memory.read_isSome_of_wf {m : Memory} (h : m.wf = true) (i : Nat) :
    (m.read i).isSome = true ↔ i < m.length := by
  rw [Memory.read_isSome_iff, (Memory.wf_iff m).1 h, List.mem_range]

theorem Memory.read_cons (a : Nat) (v : Byte) (m : Memory) (i : Nat) :
    Memory.read ((a, v) :: m) i = if i = a then some v else m.read i := by
  by_cases h : i = a
  · simp [Memory.read, h]
  · have h' : (i == a) = false := by simpa using h
    simp [Memory.read, List.lookup_cons, h', h]

/-- The cells with one slot replaced read as the new value there and as before elsewhere. -/
theorem Memory.read_map_set (m : Memory) (i j : Nat) (v : Byte) :
    Memory.read (m.map fun c => if c.1 = i then (c.1, v) else c) j =
      if j = i then (m.read j).map (fun _ => v) else m.read j := by
  induction m with
  | nil => simp [Memory.read]
  | cons c m ih =>
    obtain ⟨a, w⟩ := c
    by_cases ha : a = i
    · subst ha
      by_cases hj : j = a
      · subst hj
        simp [Memory.read_cons]
      · simp [Memory.read_cons, hj, ih]
    · by_cases hj : j = a
      · subst hj
        simp [Memory.read_cons, ha]
      · simp [Memory.read_cons, ha, hj, ih]

/-- What a write answers: it needs a readable slot, writes the value there and nothing elsewhere. -/
theorem Memory.write_eq_some {m m' : Memory} {i : Nat} {v : Byte} (h : m.write i v = some m') :
    (m.read i).isSome = true ∧ m' = m.map fun c => if c.1 = i then (c.1, v) else c := by
  unfold Memory.write at h
  split at h
  · exact ⟨‹_›, (Option.some.inj h).symm⟩
  · cases h

/-- A write fails exactly at an index that does not exist. -/
theorem Memory.write_eq_none_iff (m : Memory) (i : Nat) (v : Byte) : m.write i v = none ↔ m.read i = none := by
  unfold Memory.write
  cases h : m.read i <;> simp

theorem Memory.write_isSome_iff (m : Memory) (i : Nat) (v : Byte) :
    (m.write i v).isSome = true ↔ (m.read i).isSome = true := by
  unfold Memory.write
  cases h : m.read i <;> simp

/-- Reading the slot written. -/
theorem Memory.read_write_same {m m' : Memory} {i : Nat} {v : Byte} (h : m.write i v = some m') :
    m'.read i = some v := by
  obtain ⟨hs, rfl⟩ := Memory.write_eq_some h
  obtain ⟨w, hw⟩ := Option.isSome_iff_exists.1 hs
  simp [Memory.read_map_set, hw]

/-- Reading another slot. -/
theorem Memory.read_write_other {m m' : Memory} {i j : Nat} {v : Byte} (h : m.write i v = some m') (hj : j ≠ i) :
    m'.read j = m.read j := by
  obtain ⟨-, rfl⟩ := Memory.write_eq_some h
  simp [Memory.read_map_set, hj]

/-- A write keeps the indices. -/
theorem Memory.write_indices {m m' : Memory} {i : Nat} {v : Byte} (h : m.write i v = some m') :
    m'.map Prod.fst = m.map Prod.fst := by
  obtain ⟨-, rfl⟩ := Memory.write_eq_some h
  rw [List.map_map]
  refine List.map_congr_left fun c _ => ?_
  simp only [Function.comp_apply]
  split <;> rfl

/-- The canonical form depends on the indices alone. -/
theorem Memory.wf_of_indices {m m' : Memory} (h : m'.map Prod.fst = m.map Prod.fst) (hm : m.wf = true) :
    m'.wf = true := by
  have hl : m'.length = m.length := by simpa using congrArg List.length h
  rw [Memory.wf_iff] at hm ⊢
  rw [h, hm, hl]

/-- Readability depends on the indices alone. -/
theorem Memory.isSome_of_indices {m m' : Memory} (h : m'.map Prod.fst = m.map Prod.fst) (i : Nat) :
    (m'.read i).isSome = (m.read i).isSome := by
  rw [Bool.eq_iff_iff, Memory.read_isSome_iff, Memory.read_isSome_iff, h]

/-- A write keeps the canonical form. -/
theorem Memory.write_wf {m m' : Memory} {i : Nat} {v : Byte} (h : m.write i v = some m') (hm : m.wf = true) :
    m'.wf = true :=
  Memory.wf_of_indices (Memory.write_indices h) hm

/-- Drawing free values keeps the indices. -/
theorem Memory.havoc_indices (m : Memory) (k d : Nat) : (m.havoc k d).map Prod.fst = m.map Prod.fst := by
  unfold Memory.havoc
  rw [List.map_map]
  refine List.map_congr_left fun c _ => ?_
  simp only [Function.comp_apply]
  split <;> rfl

/-- Drawing free values keeps the canonical form. -/
theorem Memory.havoc_wf {m : Memory} (k d : Nat) (hm : m.wf = true) : (m.havoc k d).wf = true :=
  Memory.wf_of_indices (Memory.havoc_indices m k d) hm

/-- Drawing free values changes existing slots below the bound only. -/
theorem Memory.read_havoc (m : Memory) (k d j : Nat) :
    (m.havoc k d).read j = if j < k then (m.read j).map (fun _ => Config.freeSlot (d + j)) else m.read j := by
  induction m with
  | nil => simp [Memory.havoc, Memory.read]
  | cons c m ih =>
    obtain ⟨a, w⟩ := c
    simp only [Memory.havoc, List.map_cons] at ih ⊢
    by_cases ha : a < k
    · by_cases hj : j = a
      · subst hj
        simp [Memory.read_cons, ha]
      · simp [Memory.read_cons, ha, hj, ih]
    · by_cases hj : j = a
      · subst hj
        simp [Memory.read_cons, ha]
      · simp [Memory.read_cons, ha, hj, ih]

/-- A bound buffer has the canonical form. -/
theorem Memory.ofBytes_wf (bs : List Byte) : (Memory.ofBytes bs).wf = true := by
  rw [Memory.wf_iff]
  simp [Memory.ofBytes, List.map_fst_zip]

/-- The empty buffer has the canonical form. -/
theorem Memory.nil_wf : Memory.wf [] = true := by decide

end Sys2Proof.Machine
end

