-- ==== Sys2Proof/Laws/Convert.lean ====
section
/-! SUPPORT. What the shared conversions can do: one lemma per operation, which proofs about CONVCHAR, CONVWORD and CONVNUM cite
instead of unfolding it. -/

namespace Sys2Proof.Machine

/-- Everything a conversion of one character answers: a slot written with the provider's value and success, a slot written
all-off and failure, or a fault. -/
theorem convertInto_cases (s : State) (c : Byte) (i : Nat) (out : Memory) :
    (∃ g out', inRange s.cfg.range c = true ∧ provide s.cfg s.rom c = some g ∧ out.write i g = some out' ∧
        convertInto s c i out = .ok (out', true)) ∨
    (∃ out', inRange s.cfg.range c = false ∧ out.write i allOff = some out' ∧
        convertInto s c i out = .ok (out', false)) ∨
    (inRange s.cfg.range c = true ∧ provide s.cfg s.rom c = none ∧
        convertInto s c i out = .error .internalInvariant) ∨
    ((inRange s.cfg.range c = true → ∃ g, provide s.cfg s.rom c = some g) ∧ out.read i = none ∧
        convertInto s c i out = .error .outOfBuffer) := by
  unfold convertInto
  cases hr : inRange s.cfg.range c
  · cases hw : out.write i allOff with
    | none => simp [(Memory.write_eq_none_iff _ _ _).1 hw]
    | some out' => simp
  · cases hp : provide s.cfg s.rom c with
    | none => simp
    | some g =>
      cases hw : out.write i g with
      | none => simp [(Memory.write_eq_none_iff _ _ _).1 hw, hw]
      | some out' => simp [hw]

/-- A conversion that answers a buffer has written one slot. -/
theorem convertInto_ok {s : State} {c : Byte} {i : Nat} {out out' : Memory} {b : Bool}
    (h : convertInto s c i out = .ok (out', b)) :
    ∃ v, out.write i v = some out' ∧ inRange s.cfg.range c = b ∧
      (b = true → provide s.cfg s.rom c = some v) ∧ (b = false → v = allOff) := by
  rcases convertInto_cases s c i out with ⟨g, o, h1, h2, h3, h4⟩ | ⟨o, h1, h2, h3⟩ | ⟨_, _, h3⟩ | ⟨_, _, h3⟩
  · rw [h4] at h
    cases h
    exact ⟨g, h3, h1, fun _ => h2, fun h => nomatch h⟩
  · rw [h3] at h
    cases h
    exact ⟨allOff, h2, h1, fun h => (nomatch h), fun _ => rfl⟩
  · rw [h3] at h
    cases h
  · rw [h3] at h
    cases h

/-- The conversion of a supported character into an existing slot succeeds. -/
theorem convertInto_supported {s : State} {c : Byte} {i : Nat} {out : Memory} {g : Slot}
    (hr : inRange s.cfg.range c = true) (hp : provide s.cfg s.rom c = some g) (ho : (out.read i).isSome = true) :
    ∃ out', out.write i g = some out' ∧ convertInto s c i out = .ok (out', true) := by
  obtain ⟨out', hw⟩ := Option.isSome_iff_exists.1 ((Memory.write_isSome_iff out i g).2 ho)
  exact ⟨out', hw, by simp [convertInto, hr, hp, hw]⟩

/-- The conversion of an unsupported character into an existing slot writes all-off. -/
theorem convertInto_unsupported {s : State} {c : Byte} {i : Nat} {out : Memory}
    (hr : inRange s.cfg.range c = false) (ho : (out.read i).isSome = true) :
    ∃ out', out.write i allOff = some out' ∧ convertInto s c i out = .ok (out', false) := by
  obtain ⟨out', hw⟩ := Option.isSome_iff_exists.1 ((Memory.write_isSome_iff out i allOff).2 ho)
  exact ⟨out', hw, by simp [convertInto, hr, hw]⟩

/-- What a scan that ends has done: it converted the characters from `i` to its count, wrote nothing else but, at an
unsupported character, the all-off slot. -/
theorem scanWord_ok {s : State} {k i : Nat} {out : Memory} {e : ScanEnd} (h : scanWord s k i out = .ok e) :
    i ≤ e.count ∧ e.count ≤ i + k ∧ e.out.map Prod.fst = out.map Prod.fst ∧
    (∀ j, i ≤ j → j < e.count → ∃ c g, s.inBuf.read j = some c ∧ c ≠ nulChar ∧ inRange s.cfg.range c = true ∧
      provide s.cfg s.rom c = some g ∧ e.out.read j = some g) ∧
    (∀ j, j < i → e.out.read j = out.read j) ∧
    (∀ j, e.count < j → e.out.read j = out.read j) ∧
    match e.stop with
    | .bound => e.count = i + k ∧ e.out.read e.count = out.read e.count
    | .terminator => e.count < i + k ∧ s.inBuf.read e.count = some nulChar ∧
        e.out.read e.count = out.read e.count
    | .unsupported => e.count < i + k ∧ (∃ c, s.inBuf.read e.count = some c ∧ c ≠ nulChar ∧
        inRange s.cfg.range c = false) ∧ e.out.read e.count = some allOff := by
  induction k generalizing i out with
  | zero =>
    simp only [scanWord] at h
    cases h
    exact ⟨Nat.le_refl _, Nat.le_refl _, rfl, fun j h1 h2 => absurd h2 (by dsimp only; omega), fun _ _ => rfl, fun _ _ => rfl, rfl, rfl⟩
  | succ k ih =>
    simp only [scanWord] at h
    cases hc : s.inBuf.read i with
    | none =>
      rw [hc] at h
      cases h
    | some c =>
      rw [hc] at h
      dsimp only at h
      by_cases hn : c = nulChar
      · rw [if_pos hn] at h
        cases h
        exact ⟨Nat.le_refl _, by simp, rfl, fun j h1 h2 => absurd h2 (by dsimp only; omega), fun _ _ => rfl,
          fun _ _ => rfl, by simp, by rw [hc, hn], rfl⟩
      · rw [if_neg hn] at h
        cases hcv : convertInto s c i out with
        | error f =>
          rw [hcv] at h
          cases h
        | ok p =>
          obtain ⟨out', b⟩ := p
          rw [hcv] at h
          obtain ⟨v, hw, hr, ht, hf⟩ := convertInto_ok hcv
          cases b
          · cases h
            refine ⟨Nat.le_refl _, by simp, Memory.write_indices hw, fun j h1 h2 => absurd h2 (by dsimp only; omega),
              fun j hj => Memory.read_write_other hw (by omega), fun j hj => Memory.read_write_other hw ?_,
              by simp, ⟨c, hc, hn, hr⟩, ?_⟩
            · dsimp only at hj
              omega
            · rw [← hf rfl]
              exact Memory.read_write_same hw
          · dsimp only at h
            obtain ⟨h1, h2, h3, h4, h5, h6, h7⟩ := ih h
            refine ⟨by omega, by omega, h3.trans (Memory.write_indices hw), ?_, ?_, ?_, ?_⟩
            · intro j hj hj'
              rcases Nat.eq_or_lt_of_le hj with rfl | hlt
              · refine ⟨c, v, hc, hn, hr, ht rfl, ?_⟩
                rw [h5 i (by omega)]
                exact Memory.read_write_same hw
              · exact h4 j hlt hj'
            · intro j hj
              rw [h5 j (by omega)]
              exact Memory.read_write_other hw (by omega)
            · intro j hj
              rw [h6 j hj]
              exact Memory.read_write_other hw (by omega)
            · revert h7
              cases e.stop with
              | bound =>
                rintro ⟨h7, h8⟩
                exact ⟨by omega, h8.trans (Memory.read_write_other hw (by omega))⟩
              | terminator =>
                rintro ⟨h7, h8, h9⟩
                exact ⟨by omega, h8, h9.trans (Memory.read_write_other hw (by omega))⟩
              | unsupported =>
                rintro ⟨h7, h8, h9⟩
                exact ⟨by omega, h8, h9⟩

/-- A scan passes the characters it converts: after `m` of them it goes on at index `i + m`, their slots written and no other. -/
theorem scanWord_converts {s : State} {m : Nat} (k : Nat) {i : Nat} {out : Memory}
    (h : ∀ j, i ≤ j → j < i + m → ∃ c g, s.inBuf.read j = some c ∧ c ≠ nulChar ∧ inRange s.cfg.range c = true ∧
      provide s.cfg s.rom c = some g ∧ (out.read j).isSome = true) :
    ∃ out', scanWord s (m + k) i out = scanWord s k (i + m) out' ∧ out'.map Prod.fst = out.map Prod.fst ∧
      (∀ j c g, i ≤ j → j < i + m → s.inBuf.read j = some c → provide s.cfg s.rom c = some g → out'.read j = some g) ∧
      ∀ j, j < i ∨ i + m ≤ j → out'.read j = out.read j := by
  induction m generalizing i out with
  | zero => exact ⟨out, by simp, rfl, fun j c g h1 h2 => absurd h2 (by omega), fun _ _ => rfl⟩
  | succ m ih =>
    obtain ⟨c, g, hc, hn, hr, hp, ho⟩ := h i (Nat.le_refl _) (by omega)
    obtain ⟨o, hw, hcv⟩ := convertInto_supported hr hp ho
    obtain ⟨out', h1, h2, h3, h4⟩ := ih (i := i + 1) (out := o) (by
      intro j hj hj'
      obtain ⟨c', g', e1, e2, e3, e4, e5⟩ := h j (by omega) (by omega)
      exact ⟨c', g', e1, e2, e3, e4, by rwa [Memory.isSome_of_indices (Memory.write_indices hw)]⟩)
    refine ⟨out', ?_, h2.trans (Memory.write_indices hw), ?_, ?_⟩
    · rw [show m + 1 + k = m + k + 1 by omega, scanWord, hc]
      dsimp only
      rw [if_neg hn, hcv]
      dsimp only
      rw [h1]
      congr 1
      omega
    · intro j c' g' hj hj' hc' hp'
      rcases Nat.eq_or_lt_of_le hj with rfl | hlt
      · rw [hc] at hc'
        obtain rfl := Option.some.inj hc'
        rw [hp] at hp'
        obtain rfl := Option.some.inj hp'
        rw [h4 i (Or.inl (by omega))]
        exact Memory.read_write_same hw
      · exact h3 j c' g' hlt (by omega) hc' hp'
    · intro j hj
      rw [h4 j (by omega)]
      exact Memory.read_write_other hw (by omega)

/-- A text of supported characters whose slots run out faults at the first missing one. -/
theorem writeText_missing {s : State} {text : List Byte} {i k : Nat} {out : Memory}
    (hc : ∀ c ∈ text, inRange s.cfg.range c = true ∧ (provide s.cfg s.rom c).isSome = true)
    (hk : i ≤ k) (hk' : k < i + text.length) (ho : out.read k = none) :
    writeText s text i out = .error .outOfBuffer := by
  induction text generalizing i out with
  | nil => simp only [List.length_nil] at hk'; omega
  | cons c text ih =>
    obtain ⟨hr, hp⟩ := hc c (List.mem_cons_self ..)
    obtain ⟨g, hg⟩ := Option.isSome_iff_exists.1 hp
    cases hw : out.write i g with
    | none => simp [writeText, convertInto, hr, hg, hw]
    | some o =>
      have hcv : convertInto s c i out = .ok (o, true) := by simp [convertInto, hr, hg, hw]
      have hne : k ≠ i := by
        rintro rfl
        have := (Memory.write_isSome_iff out k g).1 (by simp [hw])
        simp [ho] at this
      simp only [writeText, hcv]
      exact ih (fun c hc' => hc c (List.mem_cons_of_mem _ hc')) (by omega)
        (by simp only [List.length_cons] at hk'; omega) (by rw [Memory.read_write_other hw hne, ho])

/-- A text of supported characters with a slot for each is written, slot by slot. -/
theorem writeText_supported {s : State} {text : List Byte} {i : Nat} {out : Memory}
    (hc : ∀ c ∈ text, inRange s.cfg.range c = true ∧ (provide s.cfg s.rom c).isSome = true)
    (ho : ∀ j, i ≤ j → j < i + text.length → (out.read j).isSome = true) :
    ∃ out', writeText s text i out = .ok out' := by
  induction text generalizing i out with
  | nil => exact ⟨out, rfl⟩
  | cons c text ih =>
    obtain ⟨hr, hp⟩ := hc c (List.mem_cons_self ..)
    obtain ⟨g, hg⟩ := Option.isSome_iff_exists.1 hp
    obtain ⟨out', hw, hcv⟩ := convertInto_supported hr hg (ho i (Nat.le_refl _) (by simp))
    obtain ⟨out'', h''⟩ := ih (i := i + 1) (out := out') (fun c hc' => hc c (List.mem_cons_of_mem _ hc')) (by
      intro j h1 h2
      rw [Memory.isSome_of_indices (Memory.write_indices hw)]
      exact ho j (by omega) (by simp only [List.length_cons]; omega))
    exact ⟨out'', by simp [writeText, hcv, h'']⟩

/-- What writing a text has done: slot `i + j` holds the provider's value of character `j`, and no other slot changed. -/
theorem writeText_ok {s : State} {text : List Byte} {i : Nat} {out out' : Memory}
    (h : writeText s text i out = .ok out') :
    out'.map Prod.fst = out.map Prod.fst ∧
    (∀ j c, text[j]? = some c → ∃ g, inRange s.cfg.range c = true ∧ provide s.cfg s.rom c = some g ∧
      out'.read (i + j) = some g) ∧
    (∀ j, j < i ∨ i + text.length ≤ j → out'.read j = out.read j) := by
  induction text generalizing i out with
  | nil =>
    simp only [writeText] at h
    cases h
    exact ⟨rfl, by simp, fun _ _ => rfl⟩
  | cons c text ih =>
    simp only [writeText] at h
    cases hcv : convertInto s c i out with
    | error f =>
      rw [hcv] at h
      cases h
    | ok p =>
      obtain ⟨o, b⟩ := p
      rw [hcv] at h
      obtain ⟨v, hw, hr, ht, -⟩ := convertInto_ok hcv
      cases b
      · cases h
      · dsimp only at h
        obtain ⟨h1, h2, h3⟩ := ih h
        refine ⟨h1.trans (Memory.write_indices hw), ?_, ?_⟩
        · intro j d hj
          cases j with
          | zero =>
            simp only [List.getElem?_cons_zero, Option.some.injEq] at hj
            subst hj
            refine ⟨v, hr, ht rfl, ?_⟩
            rw [Nat.add_zero, h3 i (Or.inl (by omega))]
            exact Memory.read_write_same hw
          | succ j =>
            simp only [List.getElem?_cons_succ] at hj
            obtain ⟨g, hg1, hg2, hg3⟩ := h2 j d hj
            exact ⟨g, hg1, hg2, by rw [← hg3]; congr 1; omega⟩
        · intro j hj
          simp only [List.length_cons] at hj
          rw [h3 j (by omega)]
          exact Memory.read_write_other hw (by omega)

end Sys2Proof.Machine
end

