-- ==== Sys2Proof/Laws/Encoding.lean ====
section
/-! SUPPORT. The fields of a packed request word (30_encoding.md rule R48). -/

namespace Sys2Proof

theorem reqField_getLsbD {w : Nat} (x : BitVec w) (a i : Nat) :
    (reqField x a).getLsbD i = (decide (i < 96) && decide (a ≤ i) && x.getLsbD (i - a)) := by
  unfold reqField
  rw [BitVec.getLsbD_shiftLeft, BitVec.getLsbD_setWidth]
  by_cases h : i < 96
  · by_cases ha : i < a
    · simp [ha, show ¬ a ≤ i by omega]
    · simp [h, ha, show i - a < 96 by omega, show a ≤ i by omega]
  · simp [h]

/-- A field leaves the bits below it clear. -/
theorem reqField_below {w : Nat} (x : BitVec w) {a i : Nat} (h : i < a) : (reqField x a).getLsbD i = false := by
  simp [reqField_getLsbD, show ¬ a ≤ i by omega]

/-- A field leaves the bits above it clear. -/
theorem reqField_above {w : Nat} (x : BitVec w) {a i : Nat} (h : a + w ≤ i) : (reqField x a).getLsbD i = false := by
  simp [reqField_getLsbD, BitVec.getLsbD_of_ge x (i - a) (by omega)]

/-- A field holds its value. -/
theorem reqField_inside {w : Nat} (x : BitVec w) {a i : Nat} (h : i < 96) (ha : a ≤ i) :
    (reqField x a).getLsbD i = x.getLsbD (i - a) := by
  rw [reqField_getLsbD, decide_eq_true h, decide_eq_true ha, Bool.true_and, Bool.true_and]

section

variable (val : Val) (n : Len) (ch : Byte) (leng inp outp : Bool) (op : BitVec 2)

/-- The bits of a packed word: each field in its place. -/
theorem packReq_getLsbD (i : Nat) :
    (packReq val n ch leng inp outp op).getLsbD i =
      ((reqField val 32).getLsbD i || (reqField n 16).getLsbD i || (reqField ch 8).getLsbD i ||
        (reqField (BitVec.ofBool leng) 4).getLsbD i || (reqField (BitVec.ofBool inp) 3).getLsbD i ||
        (reqField (BitVec.ofBool outp) 2).getLsbD i || (reqField op 0).getLsbD i) := by
  simp only [packReq, BitVec.getLsbD_or]

@[simp] theorem op_packReq : Req.op (packReq val n ch leng inp outp op) = op := by
  apply BitVec.eq_of_getLsbD_eq
  intro i hi
  rw [Req.op, BitVec.getLsbD_extractLsb', packReq_getLsbD]
  simp (disch := omega) only [reqField_below, reqField_inside, Bool.false_or, Bool.or_false]
  simp [hi]

@[simp] theorem outp_packReq : Req.outp (packReq val n ch leng inp outp op) = outp := by
  rw [Req.outp, packReq_getLsbD]
  simp (disch := omega) only [reqField_below, reqField_above, reqField_inside, Bool.false_or, Bool.or_false]
  simp

@[simp] theorem inp_packReq : Req.inp (packReq val n ch leng inp outp op) = inp := by
  rw [Req.inp, packReq_getLsbD]
  simp (disch := omega) only [reqField_below, reqField_above, reqField_inside, Bool.false_or, Bool.or_false]
  simp

@[simp] theorem leng_packReq : Req.leng (packReq val n ch leng inp outp op) = leng := by
  rw [Req.leng, packReq_getLsbD]
  simp (disch := omega) only [reqField_below, reqField_above, reqField_inside, Bool.false_or, Bool.or_false]
  simp

/-- REQ[7:5] of a packed word is zero (30_encoding.md rule R51). -/
@[simp] theorem reserved_packReq : Req.reserved (packReq val n ch leng inp outp op) = 0#3 := by
  apply BitVec.eq_of_getLsbD_eq
  intro i hi
  rw [Req.reserved, BitVec.getLsbD_extractLsb', packReq_getLsbD]
  simp (disch := omega) only [reqField_below, reqField_above, Bool.or_false]
  simp

@[simp] theorem ch_packReq : Req.ch (packReq val n ch leng inp outp op) = ch := by
  apply BitVec.eq_of_getLsbD_eq
  intro i hi
  rw [Req.ch, BitVec.getLsbD_extractLsb', packReq_getLsbD]
  simp (disch := omega) only [reqField_below, reqField_above, reqField_inside, Bool.false_or, Bool.or_false]
  simp [hi]

@[simp] theorem n_packReq : Req.n (packReq val n ch leng inp outp op) = n := by
  apply BitVec.eq_of_getLsbD_eq
  intro i hi
  rw [Req.n, BitVec.getLsbD_extractLsb', packReq_getLsbD]
  simp (disch := omega) only [reqField_below, reqField_above, reqField_inside, Bool.false_or, Bool.or_false]
  simp [hi]

@[simp] theorem val_packReq : Req.val (packReq val n ch leng inp outp op) = val := by
  apply BitVec.eq_of_getLsbD_eq
  intro i hi
  rw [Req.val, BitVec.getLsbD_extractLsb', packReq_getLsbD]
  simp (disch := omega) only [reqField_above, reqField_inside, Bool.or_false]
  simp [hi]

end

end Sys2Proof
end

