-- ==== Sys2Proof/Laws/PerInstr.lean ====
section
/-! SUPPORT. A family of lemmas, one per constructor of `Instr`: the request word of every operation keeps REQ[7:5] at zero
(30_encoding.md rule R51) and carries the operation's code (rule R55). -/

namespace Sys2Proof.Laws

/-- The operation code OP (30_encoding.md rule R55). -/
def opcodeOf : Instr → BitVec 2
  | .validate _ => 0b00#2
  | .convchar _ _ => 0b01#2
  | .convword _ _ _ _ => 0b10#2
  | .convnum _ _ _ => 0b11#2

/-- The request word is one the decoder does not refuse, with the operation's code. -/
def Header.Statement (i : Instr) : Prop := Req.reserved (encode i) = 0#3 ∧ Req.op (encode i) = opcodeOf i

theorem Header.validate (ch : Byte) : Header.Statement (.validate ch) := by
  simp [Header.Statement, encode, opcodeOf]

theorem Header.convchar (outp : Bool) (ch : Byte) : Header.Statement (.convchar outp ch) := by
  simp [Header.Statement, encode, opcodeOf]

theorem Header.convword (outp inp leng : Bool) (n : Len) : Header.Statement (.convword outp inp leng n) := by
  simp [Header.Statement, encode, opcodeOf]

theorem Header.convnum (outp : Bool) (cap : Len) (val : Val) : Header.Statement (.convnum outp cap val) := by
  simp [Header.Statement, encode, opcodeOf]

end Sys2Proof.Laws
end

