-- ==== Sys2Proof/Laws/Provider.lean ====
section
/-! SUPPORT. The character sets and the constraints on GLYPH and H, in the form proofs use. -/

namespace Sys2Proof.Machine

theorem mem_allBytes (c : Byte) : c ∈ allBytes := by
  simp only [allBytes, List.mem_map, List.mem_range]
  exact ⟨c.toNat, c.isLt, by simp⟩

/-- The listed members of a range are the bytes in range. -/
theorem mem_members (r : Range) (c : Byte) : c ∈ members r ↔ inRange r c = true := by
  simp [members, List.mem_filter, mem_allBytes]

/-- Every range holds the sign glyph. -/
theorem inRange_minusChar (r : Range) : inRange r minusChar = true := by
  cases r <;> decide

/-- Every range holds the digit characters. -/
theorem inRange_digitChar (r : Range) {k : Nat} (h : k < 10) : inRange r (digitChar k) = true := by
  have : ∀ r : Fin 10, inRange .digits (digitChar r) = true ∧ inRange .digitsErr (digitChar r) = true ∧
      inRange .full (digitChar r) = true := by decide
  have := this ⟨k, h⟩
  cases r
  · exact this.1
  · exact this.2.1
  · exact this.2.2

/-- The terminator is in no range. -/
theorem inRange_nulChar (r : Range) : inRange r nulChar = false := by
  cases r <;> decide

/-- Each narrower range lies in the next wider one. -/
theorem inRange_of_digits : ∀ c, inRange .digits c = true → inRange .digitsErr c = true := by decide

theorem inRange_of_digitsErr : ∀ c, inRange .digitsErr c = true → inRange .full c = true := by decide

theorem inRange_full_of_inRange {r : Range} {c : Byte} (h : inRange r c = true) : inRange .full c = true := by
  cases r
  · exact inRange_of_digitsErr c (inRange_of_digits c h)
  · exact inRange_of_digitsErr c h
  · exact h

/-- The entry check of every byte, as a statement about every byte. -/
theorem entries_iff (g : Vector Slot 256) :
    (allBytes.zip g.toList).all (fun p => entryAdmissible p.1 p.2) = true ↔
      ∀ c : Byte, entryAdmissible c (slotOf g c) = true := by
  have hlen : allBytes.length = 256 := by simp [allBytes]
  have hget : ∀ (k : Nat) (hk : k < 256), (allBytes.zip g.toList)[k]'(by simp [hlen, hk]) =
      (BitVec.ofNat 8 k, g[k]) := by
    intro k hk
    simp [allBytes, List.getElem_zip]
  rw [List.all_eq_true]
  constructor
  · intro h c
    have := h _ (List.getElem_mem (n := c.toNat) (by simp [hlen, c.isLt]))
    rw [hget c.toNat c.isLt] at this
    simpa [slotOf] using this
  · intro h p hp
    obtain ⟨k, hk, rfl⟩ := List.getElem_of_mem hp
    have hk' : k < 256 := by simpa [hlen] using hk
    rw [hget k hk']
    have := h (BitVec.ofNat 8 k)
    simpa [slotOf, Nat.mod_eq_of_lt hk'] using this

/-- The constraints of 40_table_provider.md rule R61, one by one. -/
theorem glyphAdmissible_iff (g : Vector Slot 256) :
    glyphAdmissible g = true ↔
      (∀ c : Byte, inRange .full c = false → slotOf g c = allOff) ∧ (∀ c : Byte, (slotOf g c).getLsbD 7 = false) ∧
      slotOf g 0x45#8 ≠ slotOf g 0x65#8 ∧ slotOf g 0x52#8 ≠ slotOf g 0x72#8 ∧
      slotOf g 0x4F#8 ≠ slotOf g 0x6F#8 := by
  unfold glyphAdmissible
  simp only [Bool.and_eq_true, entries_iff, bne_iff_ne, ne_eq]
  constructor
  · rintro ⟨⟨⟨h, h1⟩, h2⟩, h3⟩
    refine ⟨fun c hc => ?_, fun c => ?_, h1, h2, h3⟩
    · simpa [entryAdmissible, hc] using fun _ : True => (Bool.and_eq_true_iff.1 (h c)).1
    · simpa using (Bool.and_eq_true_iff.1 (h c)).2
  · rintro ⟨h, h7, h1, h2, h3⟩
    refine ⟨⟨⟨fun c => ?_, h1⟩, h2⟩, h3⟩
    cases hc : inRange .full c
    · simp [entryAdmissible, hc, h c hc, allOff]
    · simpa [entryAdmissible, hc] using h7 c

/-- The constraints of 40_table_provider.md rule R68, one by one. -/
theorem errIndexAdmissible_iff (h : ErrIndex) :
    errIndexAdmissible h = true ↔ (errIndices h).Nodup ∧ ∀ k ∈ errIndices h, k < 6 := by
  simp [errIndexAdmissible, List.all_eq_true]

/-- A legal configuration, constraint by constraint. -/
theorem cfgLegal_iff (cfg : Cfg) :
    cfgLegal cfg = true ↔
      ¬ (cfg.range = .full ∧ cfg.strategy = .computed) ∧ glyphAdmissible cfg.glyph = true ∧
        errIndexAdmissible cfg.errIndex = true := by
  simp [cfgLegal, and_assoc, Bool.and_eq_true, imp_iff_not_or]

/-- DEFAULT_GLYPH is admissible (40_table_provider.md rule R62). -/
theorem resetGlyph_admissible : glyphAdmissible defaultGlyph = true := by decide +kernel

/-- H_DEFAULT is admissible (40_table_provider.md rule R69). -/
theorem resetErrIndex_admissible : errIndexAdmissible defaultErrIndex = true := by decide

end Sys2Proof.Machine
end

