-- ==== Sys2Proof/Laws/Response.lean ====
section
/-! SUPPORT. The fields of a response word. -/

namespace Sys2Proof.Machine

/-- The bits of a response word: OK, 15 zeros, COUNT (30_encoding.md rule R53). -/
theorem getLsbD_rspWord (ok : Bool) (count : Len) (i : Nat) :
    (rspWord ok count).getLsbD i = if i < 16 then decide (i = 0) && ok else count.getLsbD (i - 16) := by
  by_cases h0 : i = 0
  · subst h0
    cases ok <;> simp [rspWord]
  · by_cases hi : i < 16
    · cases ok <;> simp [rspWord, h0, hi]
    · by_cases h32 : i < 32
      · cases ok <;> simp [rspWord, h0, hi, h32]
      · have := BitVec.getLsbD_of_ge count (i - 16) (by omega)
        cases ok <;> simp [rspWord, h0, hi, h32, this]

@[simp] theorem okOf_rspWord (ok : Bool) (count : Len) : okOf (rspWord ok count) = ok := by
  rw [okOf, getLsbD_rspWord]
  simp

@[simp] theorem countOf_rspWord (ok : Bool) (count : Len) : countOf (rspWord ok count) = count := by
  apply BitVec.eq_of_getLsbD_eq
  intro i hi
  rw [countOf, BitVec.getLsbD_extractLsb', getLsbD_rspWord]
  simp [hi]

/-- RSP[15:1] is zero. -/
@[simp] theorem reserved_rspWord (ok : Bool) (count : Len) : (rspWord ok count).extractLsb' 1 15 = 0#15 := by
  apply BitVec.eq_of_getLsbD_eq
  intro i hi
  rw [BitVec.getLsbD_extractLsb', getLsbD_rspWord]
  simp [hi, show 1 + i < 16 by omega]

@[simp] theorem okOf_rspOk (ok : Bool) : okOf (rspOk ok) = ok := okOf_rspWord ok _
@[simp] theorem countOf_rspOk (ok : Bool) : countOf (rspOk ok) = 0#16 := countOf_rspWord ok _
@[simp] theorem okOf_rspCount (n : Nat) : okOf (rspCount n) = false := okOf_rspWord false _
@[simp] theorem countOf_rspCount (n : Nat) : countOf (rspCount n) = BitVec.ofNat 16 n := countOf_rspWord false _

end Sys2Proof.Machine
end

