-- ==== Sys2Proof/Laws/State.lean ====
section
/-! SUPPORT. What each update of the state does to each field, and the fields of a fresh instance. -/

namespace Sys2Proof.Machine

/-! ## State.respond -/

@[simp] theorem State.respond_cfg (s : State) (out : Memory) (w : Rsp) (c : FailureClass) :
    (s.respond out w c).cfg = s.cfg := rfl
@[simp] theorem State.respond_rom (s : State) (out : Memory) (w : Rsp) (c : FailureClass) :
    (s.respond out w c).rom = s.rom := rfl
@[simp] theorem State.respond_inBuf (s : State) (out : Memory) (w : Rsp) (c : FailureClass) :
    (s.respond out w c).inBuf = s.inBuf := rfl
@[simp] theorem State.respond_outBuf (s : State) (out : Memory) (w : Rsp) (c : FailureClass) :
    (s.respond out w c).outBuf = out := rfl
@[simp] theorem State.respond_overlap (s : State) (out : Memory) (w : Rsp) (c : FailureClass) :
    (s.respond out w c).overlap = s.overlap := rfl
@[simp] theorem State.respond_pending (s : State) (out : Memory) (w : Rsp) (c : FailureClass) :
    (s.respond out w c).pending = s.pending := rfl
@[simp] theorem State.respond_rsp (s : State) (out : Memory) (w : Rsp) (c : FailureClass) :
    (s.respond out w c).rsp = some w := rfl
@[simp] theorem State.respond_cls (s : State) (out : Memory) (w : Rsp) (c : FailureClass) :
    (s.respond out w c).cls = some c := rfl
@[simp] theorem State.respond_faulted (s : State) (out : Memory) (w : Rsp) (c : FailureClass) :
    (s.respond out w c).faulted = s.faulted := rfl
@[simp] theorem State.respond_refused (s : State) (out : Memory) (w : Rsp) (c : FailureClass) :
    (s.respond out w c).refused = s.refused := rfl
@[simp] theorem State.respond_draw (s : State) (out : Memory) (w : Rsp) (c : FailureClass) :
    (s.respond out w c).draw = s.draw := rfl

/-! ## State.abandon -/

@[simp] theorem State.abandon_cfg (s : State) (k : Nat) : (s.abandon k).cfg = s.cfg := rfl
@[simp] theorem State.abandon_rom (s : State) (k : Nat) : (s.abandon k).rom = s.rom := rfl
@[simp] theorem State.abandon_inBuf (s : State) (k : Nat) : (s.abandon k).inBuf = s.inBuf := rfl
@[simp] theorem State.abandon_outBuf (s : State) (k : Nat) : (s.abandon k).outBuf = s.outBuf.havoc k s.draw := rfl
@[simp] theorem State.abandon_overlap (s : State) (k : Nat) : (s.abandon k).overlap = s.overlap := rfl
@[simp] theorem State.abandon_pending (s : State) (k : Nat) : (s.abandon k).pending = s.pending := rfl
@[simp] theorem State.abandon_rsp (s : State) (k : Nat) : (s.abandon k).rsp = none := rfl
@[simp] theorem State.abandon_cls (s : State) (k : Nat) : (s.abandon k).cls = none := rfl
@[simp] theorem State.abandon_faulted (s : State) (k : Nat) : (s.abandon k).faulted = s.faulted := rfl
@[simp] theorem State.abandon_refused (s : State) (k : Nat) : (s.abandon k).refused = s.refused := rfl
@[simp] theorem State.abandon_draw (s : State) (k : Nat) : (s.abandon k).draw = s.draw + k := rfl

/-! ## State.takeFault -/

@[simp] theorem State.takeFault_cfg (s : State) (f : Fault) (k : Nat) : (s.takeFault f k).cfg = s.cfg := rfl
@[simp] theorem State.takeFault_rom (s : State) (f : Fault) (k : Nat) : (s.takeFault f k).rom = s.rom := rfl
@[simp] theorem State.takeFault_inBuf (s : State) (f : Fault) (k : Nat) : (s.takeFault f k).inBuf = s.inBuf := rfl
@[simp] theorem State.takeFault_outBuf (s : State) (f : Fault) (k : Nat) :
    (s.takeFault f k).outBuf = s.outBuf.havoc k s.draw := rfl
@[simp] theorem State.takeFault_overlap (s : State) (f : Fault) (k : Nat) :
    (s.takeFault f k).overlap = s.overlap := rfl
@[simp] theorem State.takeFault_pending (s : State) (f : Fault) (k : Nat) :
    (s.takeFault f k).pending = s.pending := rfl
@[simp] theorem State.takeFault_rsp (s : State) (f : Fault) (k : Nat) : (s.takeFault f k).rsp = none := rfl
@[simp] theorem State.takeFault_cls (s : State) (f : Fault) (k : Nat) : (s.takeFault f k).cls = faultClass f := rfl
@[simp] theorem State.takeFault_faulted (s : State) (f : Fault) (k : Nat) :
    (s.takeFault f k).faulted = s.faulted.or (some f) := rfl
@[simp] theorem State.takeFault_refused (s : State) (f : Fault) (k : Nat) :
    (s.takeFault f k).refused = s.refused := rfl
@[simp] theorem State.takeFault_draw (s : State) (f : Fault) (k : Nat) : (s.takeFault f k).draw = s.draw + k := rfl

/-! ## State.markRefused -/

@[simp] theorem State.markRefused_cfg (s : State) (r : Refusal) : (s.markRefused r).cfg = s.cfg := rfl
@[simp] theorem State.markRefused_rom (s : State) (r : Refusal) : (s.markRefused r).rom = s.rom := rfl
@[simp] theorem State.markRefused_inBuf (s : State) (r : Refusal) : (s.markRefused r).inBuf = s.inBuf := rfl
@[simp] theorem State.markRefused_outBuf (s : State) (r : Refusal) : (s.markRefused r).outBuf = s.outBuf := rfl
@[simp] theorem State.markRefused_overlap (s : State) (r : Refusal) : (s.markRefused r).overlap = s.overlap := rfl
@[simp] theorem State.markRefused_pending (s : State) (r : Refusal) : (s.markRefused r).pending = s.pending := rfl
@[simp] theorem State.markRefused_rsp (s : State) (r : Refusal) : (s.markRefused r).rsp = s.rsp := rfl
@[simp] theorem State.markRefused_cls (s : State) (r : Refusal) : (s.markRefused r).cls = s.cls := rfl
@[simp] theorem State.markRefused_faulted (s : State) (r : Refusal) : (s.markRefused r).faulted = s.faulted := rfl
@[simp] theorem State.markRefused_refused (s : State) (r : Refusal) :
    (s.markRefused r).refused = s.refused.or (some r) := rfl
@[simp] theorem State.markRefused_draw (s : State) (r : Refusal) : (s.markRefused r).draw = s.draw := rfl

/-! ## State.takeRefusal -/

@[simp] theorem State.takeRefusal_cfg (s : State) (r : Refusal) : (s.takeRefusal r).cfg = s.cfg := rfl
@[simp] theorem State.takeRefusal_rom (s : State) (r : Refusal) : (s.takeRefusal r).rom = s.rom := rfl
@[simp] theorem State.takeRefusal_inBuf (s : State) (r : Refusal) : (s.takeRefusal r).inBuf = s.inBuf := rfl
@[simp] theorem State.takeRefusal_outBuf (s : State) (r : Refusal) : (s.takeRefusal r).outBuf = s.outBuf := rfl
@[simp] theorem State.takeRefusal_overlap (s : State) (r : Refusal) : (s.takeRefusal r).overlap = s.overlap := rfl
@[simp] theorem State.takeRefusal_pending (s : State) (r : Refusal) : (s.takeRefusal r).pending = s.pending := rfl
@[simp] theorem State.takeRefusal_rsp (s : State) (r : Refusal) : (s.takeRefusal r).rsp = none := rfl
@[simp] theorem State.takeRefusal_cls (s : State) (r : Refusal) : (s.takeRefusal r).cls = none := rfl
@[simp] theorem State.takeRefusal_faulted (s : State) (r : Refusal) : (s.takeRefusal r).faulted = s.faulted := rfl
@[simp] theorem State.takeRefusal_refused (s : State) (r : Refusal) :
    (s.takeRefusal r).refused = s.refused.or (some r) := rfl
@[simp] theorem State.takeRefusal_draw (s : State) (r : Refusal) : (s.takeRefusal r).draw = s.draw := rfl

/-! ## State.onReset -/

@[simp] theorem State.onReset_cfg (s : State) : (s.onReset).cfg = s.cfg := rfl
@[simp] theorem State.onReset_rom (s : State) : (s.onReset).rom = s.rom := rfl
@[simp] theorem State.onReset_inBuf (s : State) : (s.onReset).inBuf = s.inBuf := rfl
@[simp] theorem State.onReset_outBuf (s : State) : (s.onReset).outBuf = s.outBuf := rfl
@[simp] theorem State.onReset_overlap (s : State) : (s.onReset).overlap = s.overlap := rfl
@[simp] theorem State.onReset_pending (s : State) : (s.onReset).pending = s.pending := rfl
@[simp] theorem State.onReset_rsp (s : State) : (s.onReset).rsp = none := rfl
@[simp] theorem State.onReset_cls (s : State) : (s.onReset).cls = none := rfl
@[simp] theorem State.onReset_faulted (s : State) : (s.onReset).faulted = s.faulted := rfl
@[simp] theorem State.onReset_refused (s : State) : (s.onReset).refused = s.refused := rfl
@[simp] theorem State.onReset_draw (s : State) : (s.onReset).draw = s.draw := rfl

/-! ## State.onBind -/

@[simp] theorem State.onBind_cfg (s : State) (xs ys : List Byte) (o : Bool) : (s.onBind xs ys o).cfg = s.cfg := rfl
@[simp] theorem State.onBind_rom (s : State) (xs ys : List Byte) (o : Bool) : (s.onBind xs ys o).rom = s.rom := rfl
@[simp] theorem State.onBind_inBuf (s : State) (xs ys : List Byte) (o : Bool) :
    (s.onBind xs ys o).inBuf = Memory.ofBytes xs := rfl
@[simp] theorem State.onBind_outBuf (s : State) (xs ys : List Byte) (o : Bool) :
    (s.onBind xs ys o).outBuf = Memory.ofBytes ys := rfl
@[simp] theorem State.onBind_overlap (s : State) (xs ys : List Byte) (o : Bool) : (s.onBind xs ys o).overlap = o := rfl
@[simp] theorem State.onBind_pending (s : State) (xs ys : List Byte) (o : Bool) :
    (s.onBind xs ys o).pending = s.pending := rfl
@[simp] theorem State.onBind_rsp (s : State) (xs ys : List Byte) (o : Bool) : (s.onBind xs ys o).rsp = s.rsp := rfl
@[simp] theorem State.onBind_cls (s : State) (xs ys : List Byte) (o : Bool) : (s.onBind xs ys o).cls = s.cls := rfl
@[simp] theorem State.onBind_faulted (s : State) (xs ys : List Byte) (o : Bool) :
    (s.onBind xs ys o).faulted = s.faulted := rfl
@[simp] theorem State.onBind_refused (s : State) (xs ys : List Byte) (o : Bool) :
    (s.onBind xs ys o).refused = s.refused := rfl
@[simp] theorem State.onBind_draw (s : State) (xs ys : List Byte) (o : Bool) : (s.onBind xs ys o).draw = s.draw := rfl

/-! ## State.withFetchWord -/

@[simp] theorem State.withFetchWord_cfg (s : State) (nbits w : Nat) : (s.withFetchWord nbits w).cfg = s.cfg := rfl
@[simp] theorem State.withFetchWord_rom (s : State) (nbits w : Nat) : (s.withFetchWord nbits w).rom = s.rom := rfl
@[simp] theorem State.withFetchWord_inBuf (s : State) (nbits w : Nat) :
    (s.withFetchWord nbits w).inBuf = s.inBuf := rfl
@[simp] theorem State.withFetchWord_outBuf (s : State) (nbits w : Nat) :
    (s.withFetchWord nbits w).outBuf = s.outBuf := rfl
@[simp] theorem State.withFetchWord_overlap (s : State) (nbits w : Nat) :
    (s.withFetchWord nbits w).overlap = s.overlap := rfl
@[simp] theorem State.withFetchWord_pending (s : State) (nbits w : Nat) :
    (s.withFetchWord nbits w).pending = .request (tableWord nbits w) .undisturbed :: s.pending := rfl
@[simp] theorem State.withFetchWord_rsp (s : State) (nbits w : Nat) : (s.withFetchWord nbits w).rsp = s.rsp := rfl
@[simp] theorem State.withFetchWord_cls (s : State) (nbits w : Nat) : (s.withFetchWord nbits w).cls = s.cls := rfl
@[simp] theorem State.withFetchWord_faulted (s : State) (nbits w : Nat) :
    (s.withFetchWord nbits w).faulted = s.faulted := rfl
@[simp] theorem State.withFetchWord_refused (s : State) (nbits w : Nat) :
    (s.withFetchWord nbits w).refused = s.refused := rfl
@[simp] theorem State.withFetchWord_draw (s : State) (nbits w : Nat) : (s.withFetchWord nbits w).draw = s.draw := rfl

/-! ## A fresh instance -/

@[simp] theorem State.fresh_cfg (cfg : Cfg) : (State.fresh cfg).cfg = cfg := rfl
@[simp] theorem State.fresh_rom (cfg : Cfg) : (State.fresh cfg).rom = romOf cfg := rfl
@[simp] theorem State.fresh_inBuf (cfg : Cfg) : (State.fresh cfg).inBuf = [] := rfl
@[simp] theorem State.fresh_outBuf (cfg : Cfg) : (State.fresh cfg).outBuf = [] := rfl
@[simp] theorem State.fresh_overlap (cfg : Cfg) : (State.fresh cfg).overlap = false := rfl
@[simp] theorem State.fresh_pending (cfg : Cfg) : (State.fresh cfg).pending = [] := rfl
@[simp] theorem State.fresh_rsp (cfg : Cfg) : (State.fresh cfg).rsp = none := rfl
@[simp] theorem State.fresh_cls (cfg : Cfg) : (State.fresh cfg).cls = none := rfl
@[simp] theorem State.fresh_faulted (cfg : Cfg) : (State.fresh cfg).faulted = none := rfl
@[simp] theorem State.fresh_refused (cfg : Cfg) : (State.fresh cfg).refused = none := rfl
@[simp] theorem State.fresh_draw (cfg : Cfg) : (State.fresh cfg).draw = 0 := rfl

/-- `exec` of each constructor, by its meaning. -/
@[simp] theorem exec_validate (ch : Byte) (s : State) : exec (.validate ch) s = execValidate ch s := rfl
@[simp] theorem exec_convchar (outp : Bool) (ch : Byte) (s : State) :
    exec (.convchar outp ch) s = execConvchar outp ch s := rfl
@[simp] theorem exec_convword (outp inp leng : Bool) (n : Len) (s : State) :
    exec (.convword outp inp leng n) s = execConvword outp inp leng n s := rfl
@[simp] theorem exec_convnum (outp : Bool) (cap : Len) (val : Val) (s : State) :
    exec (.convnum outp cap val) s = execConvnum outp cap val s := rfl

/-- A step always answers the next state. -/
@[simp] theorem step_eq (s : State) : step s = .next (nextState s) := rfl

end Sys2Proof.Machine
end

