-- ==== Sys2Proof/Laws/Transaction.lean ====
section
/-! SUPPORT. What a step does with each action of the outside, and what one transaction can end in. -/

namespace Sys2Proof.Machine

theorem nextState_idle {s : State} (h : s.pending = []) : nextState s = s := by
  simp [nextState, h]

theorem nextState_event {s : State} {e : Event} {rest : List Event} (h : s.pending = e :: rest) :
    nextState s = handleEvent e { s with pending := rest } := by
  simp [nextState, h]

@[simp] theorem handleEvent_bind (xs ys : List Byte) (o : Bool) (s : State) :
    handleEvent (.bind xs ys o) s = s.onBind xs ys o := rfl
@[simp] theorem handleEvent_request (q : Req) (d : Interference) (s : State) :
    handleEvent (.request q d) s = transact q d s := rfl
@[simp] theorem handleEvent_reset (s : State) : handleEvent .reset s = s.onReset := rfl

/-- A refused instance processes no request. -/
theorem transact_illegal {q : Req} {d : Interference} {s : State} (h : s.refused = some .illegalConfig) :
    transact q d s = s.takeRefusal .illegalConfig := by
  simp [transact, h]

/-- A word with reserved bits is refused. -/
theorem transact_reserved {q : Req} {d : Interference} {s : State} (h : s.refused ≠ some .illegalConfig)
    (hq : decode q = .error .reservedBits) :
    transact q d s = refuseSecond d (s.takeRefusal .reservedBits) := by
  simp [transact, h, hq]

/-- A word with a meaning is run. -/
theorem transact_ok {q : Req} {d : Interference} {s : State} {i : Instr} (h : s.refused ≠ some .illegalConfig)
    (hq : decode q = .ok i) : transact q d s = runRequest i d s := by
  simp [transact, h, hq]

/-- What becomes of an outcome of `exec`: a refusal is taken whatever happens meanwhile, a reset abandons any other transaction,
and without one a fault is taken and an answer stands. -/
theorem conclude_cases (i : Instr) (d : Interference) (s : State) (o : Host.Outcome State Fault Refusal) :
    (∃ r, o = .refused r ∧ conclude i d s o = s.takeRefusal r) ∨
    ((∀ r, o ≠ .refused r) ∧ d = .resetArrives ∧ conclude i d s o = s.abandon (footprint s.cfg i)) ∨
    (∃ f, o = .fault f ∧ d ≠ .resetArrives ∧ conclude i d s o = s.takeFault f (footprint s.cfg i)) ∨
    (∃ t, o = .next t ∧ d ≠ .resetArrives ∧ conclude i d s o = t) := by
  cases o <;> by_cases hd : d = .resetArrives <;> simp [conclude, hd]

/-- The ends of a request: another agent's access refuses it; otherwise it is what `conclude` makes of the outcome of `exec`, and
a second request adds the refusal mark. -/
theorem runRequest_cases (i : Instr) (d : Interference) (s : State) :
    (d = .agentAccess ∧ runRequest i d s = s.takeRefusal .concurrentAccess) ∨
    (d ≠ .agentAccess ∧ ∃ u, runRequest i d s = refuseSecond d u ∧
      ((∃ r, exec i s = .refused r ∧ u = s.takeRefusal r) ∨
       ((∀ r, exec i s ≠ .refused r) ∧ d = .resetArrives ∧ u = s.abandon (footprint s.cfg i)) ∨
       (∃ f, exec i s = .fault f ∧ d ≠ .resetArrives ∧ u = s.takeFault f (footprint s.cfg i)) ∨
       (∃ t, exec i s = .next t ∧ d ≠ .resetArrives ∧ u = t))) := by
  by_cases hd : d = .agentAccess
  · exact Or.inl ⟨hd, by simp [runRequest, hd]⟩
  · exact Or.inr ⟨hd, conclude i d s (exec i s), by simp [runRequest, hd], conclude_cases i d s (exec i s)⟩

/-- A reset abandons every transaction that is not refused, one that would have faulted among them. -/
theorem runRequest_resetArrives {i : Instr} {s : State} (h : ∀ r, exec i s ≠ .refused r) :
    runRequest i .resetArrives s = s.abandon (footprint s.cfg i) := by
  cases hx : exec i s with
  | refused r => exact absurd hx (h r)
  | fault f => simp [runRequest, refuseSecond, conclude, hx]
  | next t => simp [runRequest, refuseSecond, conclude, hx]

/-- A second request changes the refusal mark alone. -/
theorem refuseSecond_eq (d : Interference) (s : State) :
    refuseSecond d s = { s with refused := (refuseSecond d s).refused } := by
  cases d <;> rfl

/-- A second request never clears the refusal mark. -/
theorem refuseSecond_refused (d : Interference) (s : State) :
    (refuseSecond d s).refused = s.refused ∨ (refuseSecond d s).refused = s.refused.or (some .concurrentAccess) := by
  cases d <;> simp [refuseSecond]

end Sys2Proof.Machine
end

