-- ==== Sys2Proof/Machine/AsmText.lean ====
section
/-! DEFINITION. The assembler syntax of 30_encoding.md rule R56 on text: lines of characters, programs and initial buffer
states. -/

namespace Sys2Proof.Machine

/-- A space or a tab. -/
def isBlank (c : Char) : Bool := c.toNat == 0x20 || c.toNat == 0x09

/-- The single quote round a character. -/
def isQuote (c : Char) : Bool := c.toNat == 0x27

/-- The double quote round a text. -/
def isTextQuote (c : Char) : Bool := c.toNat == 0x22

/-- Without the blanks in front. -/
def skipBlanks : List Char → List Char
  | [] => []
  | c :: cs => if isBlank c then skipBlanks cs else c :: cs

/-- Without the blanks at both ends. -/
def trim (cs : List Char) : List Char := (skipBlanks (skipBlanks cs).reverse).reverse

/-- The pieces between the separators that stand outside quotes; `single` and `double` say which quote is open, `acc` holds the
current piece in reverse. A single quote opens a character only when one closes it two places on. -/
def splitOutside (sep : Nat) : (cs : List Char) → (single : Nat) → (double : Bool) → (acc : List Char) →
    List (List Char)
  | [], _, _, acc => [acc.reverse]
  | c :: cs, k + 1, d, acc => splitOutside sep cs k d (c :: acc)
  | c :: cs, 0, true, acc => splitOutside sep cs 0 (!isTextQuote c) (c :: acc)
  | c :: cs, 0, false, acc =>
    if c.toNat = sep then acc.reverse :: splitOutside sep cs 0 false []
    else if isQuote c && ((cs[1]?).map isQuote).getD false then splitOutside sep cs 2 false (c :: acc)
    else splitOutside sep cs 0 (isTextQuote c) (c :: acc)

/-- A line without its comment: "`;` starts a comment" (30_encoding.md rule R56). -/
def stripComment (cs : List Char) : List Char := ((splitOutside 0x3B cs 0 false []).head?).getD []

/-- The value of a decimal digit character. -/
def decDigit (c : Char) : Option Nat :=
  if 0x30 ≤ c.toNat ∧ c.toNat ≤ 0x39 then some (c.toNat - 0x30) else none

/-- The value of a hexadecimal digit character. -/
def hexDigit (c : Char) : Option Nat :=
  if 0x41 ≤ c.toNat ∧ c.toNat ≤ 0x46 then some (c.toNat - 0x41 + 10)
  else if 0x61 ≤ c.toNat ∧ c.toNat ≤ 0x66 then some (c.toNat - 0x61 + 10)
  else decDigit c

/-- The number the digits spell in a base, after `acc`. -/
def digitsFrom (base : Nat) (value : Char → Option Nat) : List Char → (acc : Nat) → Option Nat
  | [], acc => some acc
  | c :: cs, acc => (value c).bind fun d => digitsFrom base value cs (acc * base + d)

/-- A number of at least one digit. -/
def number (base : Nat) (value : Char → Option Nat) : List Char → Option Nat
  | [] => none
  | c :: cs => digitsFrom base value (c :: cs) 0

/-- A byte, if the number is one. -/
def asByte (n : Nat) : Option Byte := if n < 256 then some (BitVec.ofNat 8 n) else none

/-- A byte in hexadecimal, `0xC1` (30_encoding.md rule R56). -/
def hexByte : List Char → Option Byte
  | z :: x :: ds => if z = '0' ∧ x = 'x' then (number 16 hexDigit ds).bind asByte else none
  | _ => none

/-- A decimal signed number (30_encoding.md rule R56). -/
def decimal : List Char → Option Int
  | [] => none
  | c :: cs =>
    if c = '-' then (number 10 decDigit cs).map fun n => - (n : Int)
    else (number 10 decDigit (c :: cs)).map fun n => (n : Int)

/-- A quoted character, `'A'` (30_encoding.md rule R56). -/
def quotedChar : List Char → Option Byte
  | [a, c, b] => if isQuote a && isQuote b then asByte c.toNat else none
  | _ => none

/-- An operand (30_encoding.md rule R56). -/
def operand (cs : List Char) : Option Operand :=
  if cs = ['O', 'U', 'T'] then some .out
  else if cs = ['I', 'N'] then some .inp
  else if cs = ['N', 'U', 'L', 'L'] then some .null
  else if cs = ['D', 'E', 'F', 'A', 'U', 'L', 'T'] then some .default
  else (((quotedChar cs).or (hexByte cs)).map Operand.char).or ((decimal cs).map Operand.num)

/-- A mnemonic or the source's name for it, "accepted as synonyms" (30_encoding.md rule R56). -/
def mnemonic (cs : List Char) : Option Mnemonic :=
  if cs = ['V', 'A', 'L', 'I', 'D', 'A', 'T', 'E'] then some .validate
  else if cs = ['V', 'a', 'l', 'i', 'd', 'a', 't', 'e'] then some .validate
  else if cs = ['C', 'O', 'N', 'V', 'C', 'H', 'A', 'R'] then some .convchar
  else if cs = ['C', 'o', 'n', 'v', 'e', 'r', 't', 'C', 'h', 'a', 'r'] then some .convchar
  else if cs = ['C', 'O', 'N', 'V', 'W', 'O', 'R', 'D'] then some .convword
  else if cs = ['C', 'o', 'n', 'v', 'e', 'r', 't', 'W', 'o', 'r', 'd'] then some .convword
  else if cs = ['C', 'O', 'N', 'V', 'N', 'U', 'M'] then some .convnum
  else if cs = ['C', 'o', 'n', 'v', 'e', 'r', 't', 'N', 'u', 'm'] then some .convnum
  else none

/-- All the results, or none if one is missing. -/
def allSome {α : Type} : List (Option α) → Option (List α)
  | [] => some []
  | x :: xs => x.bind fun a => (allSome xs).map (a :: ·)

/-- The request of a line without comment and outer blanks: a mnemonic, a blank, operands parted by commas
(30_encoding.md rule R56). -/
def requestLine (cs : List Char) : Option Instr :=
  (mnemonic (cs.takeWhile fun c => !isBlank c)).bind fun m =>
    (allSome ((splitOutside 0x2C (cs.dropWhile fun c => !isBlank c) 0 false []).map fun p => operand (trim p))).bind
      fun ops => assemble m ops

/-- The bytes of `"text"`, "no terminator added" (30_encoding.md rule R56). There is no escape: a double quote between the first
and the last one is a byte of the text (DESIGN CHOICE, assumption entry 20). -/
def textBytes : List Char → Option (List Byte)
  | [] => none
  | c :: cs =>
    match isTextQuote c, cs.reverse with
    | true, e :: body => if isTextQuote e then allSome (body.reverse.map fun x => asByte x.toNat) else none
    | _, _ => none

/-- The bytes of `[0x31, 0x00]`, or of `[]` (30_encoding.md rule R56). -/
def listBytes : List Char → Option (List Byte)
  | [] => none
  | c :: cs =>
    match c == '[', cs.reverse with
    | true, e :: body =>
      if e = ']' then
        if trim body.reverse = [] then some []
        else allSome ((splitOutside 0x2C body.reverse 0 false []).map fun p => hexByte (trim p))
      else none
    | _, _ => none

/-- A line of a program (30_encoding.md rule R56). -/
inductive AsmLine where
  | empty
  | request (i : Instr)
  | inState (bytes : List Byte)
  | outState (bytes : List Byte)
  deriving DecidableEq, Repr

/-- The line that these characters, without comment and outer blanks, stand for: nothing, an initial buffer state
`IN = ..` or `OUT = ..`, or a request (30_encoding.md rule R56). -/
def asmBody (cs : List Char) : Option AsmLine :=
  if cs = [] then some .empty
  else
    match splitOutside 0x3D cs 0 false [] with
    | [name, value] =>
      if trim name = ['I', 'N'] then ((textBytes (trim value)).or (listBytes (trim value))).map AsmLine.inState
      else if trim name = ['O', 'U', 'T'] then (listBytes (trim value)).map AsmLine.outState
      else none
    | _ => (requestLine cs).map AsmLine.request

/-- A line of text. -/
def asmLine (cs : List Char) : Option AsmLine := asmBody (trim (stripComment cs))

/-- The lines of a text, at its newlines. -/
def textLines : (cs : List Char) → (acc : List Char) → List (List Char)
  | [], acc => [acc.reverse]
  | c :: cs, acc => if c.toNat = 0x0A then acc.reverse :: textLines cs [] else textLines cs (c :: acc)

/-- A program: the initial buffers, if given, and the requests in order (30_encoding.md rule R56). -/
structure Program where
  inBytes  : Option (List Byte)
  outSlots : Option (List Byte)
  requests : List Instr
  deriving DecidableEq, Repr

/-- The lines of a program, one after another; a buffer state is initial: it stands once and before the requests. -/
def collect : List AsmLine → (p : Program) → Option Program
  | [], p => some { p with requests := p.requests.reverse }
  | .empty :: ls, p => collect ls p
  | .request i :: ls, p => collect ls { p with requests := i :: p.requests }
  | .inState bs :: ls, p =>
    if p.requests = [] ∧ p.inBytes = none then collect ls { p with inBytes := some bs } else none
  | .outState bs :: ls, p =>
    if p.requests = [] ∧ p.outSlots = none then collect ls { p with outSlots := some bs } else none

/-- The program a text stands for: "a list of requests, one per line, executed in order" (30_encoding.md rule R56). -/
def asmProgram (cs : List Char) : Option Program :=
  (allSome ((textLines cs []).map asmLine)).bind fun ls => collect ls ⟨none, none, []⟩

/-- The actions of the outside a program stands for: its initial buffers are bound, then its requests are issued in order
(30_encoding.md rule R56). A buffer it does not name is not bound, IN_LEN or OUT_LEN = 0 (95_test_vectors.md, program P1). -/
def Program.events (p : Program) : List Event :=
  .bind (p.inBytes.getD []) (p.outSlots.getD []) false :: p.requests.map fun i => .request (encode i) .undisturbed

end Sys2Proof.Machine
end

