-- ==== Sys2Proof/Tests/Slice0.lean ====
section
/-! SUPPORT. Tests with expected values from 95_test_vectors.md and the spec's tables, and for each statement with hypotheses a
witness that meets them. -/

namespace Sys2Proof.Tests

open Sys2Proof.Machine

/-! ## Small states -/

/-- The defaults with this range and strategy, and MAX_WORD_LEN = 8 as in program P2. -/
def cfgOf (r : Range) (st : Strategy) : Cfg := { resetCfg with range := r, strategy := st, maxWordLen := 8#16 }

/-- An instance with these bytes in IN and these slots in OUT. -/
def stateOf (cfg : Cfg) (xs ys : List Byte) : State :=
  { State.fresh cfg with inBuf := Memory.ofBytes xs, outBuf := Memory.ofBytes ys }

/-- `n` slots of 0xAA, as the vectors start. -/
def filler (n : Nat) : List Byte := List.replicate n 0xAA#8

/-- The state after one request word. -/
def after (s : State) (w : Nat) : State := nextState (s.withFetchWord 96 w)

/-- The slots of OUT in index order. -/
def slots (s : State) : List Byte := s.outBuf.map Prod.snd

theorem legal_cfgOf {r : Range} {st : Strategy} (h : ¬ (r = .full ∧ st = .computed)) : cfgLegal (cfgOf r st) = true :=
  (cfgLegal_iff _).2 ⟨h, resetGlyph_admissible, resetErrIndex_admissible⟩

theorem sound_stateOf {r : Range} {st : Strategy} (h : ¬ (r = .full ∧ st = .computed)) (xs ys : List Byte) :
    (stateOf (cfgOf r st) xs ys).Sound :=
  ⟨rfl, legal_cfgOf h⟩

/-- FULL with a ROM. -/
def full (xs ys : List Byte) : State := stateOf (cfgOf .full .table) xs ys

/-- DIGITS with Strategy B. -/
def digits (xs ys : List Byte) : State := stateOf (cfgOf .digits .computed) xs ys

/-- DIGITS_ERR with a ROM. -/
def digitsErr (xs ys : List Byte) : State := stateOf (cfgOf .digitsErr .table) xs ys

theorem sound_full (xs ys : List Byte) : (full xs ys).Sound := sound_stateOf (by decide) xs ys
theorem sound_digits (xs ys : List Byte) : (digits xs ys).Sound := sound_stateOf (by decide) xs ys
theorem sound_digitsErr (xs ys : List Byte) : (digitsErr xs ys).Sound := sound_stateOf (by decide) xs ys

/-! ## Well-formed requests -/

/-- The one check of well-formedness: LENG = 0 is written with N = 0 (rule R56). -/
theorem test_wellFormed_refuses : ¬ (Instr.convword true true false 3#16).WellFormed := by decide

theorem test_wellFormed_accepts : (Instr.convword true true false 0#16).WellFormed := by decide

/-! ## Decoding: words written out from 30_encoding.md rule R48 -/

/-- VAL, N = 0, CH = 0x71 (`q`), header 000 0 0 0 00. -/
theorem test_decode_validate : decodeTableWord 96 0x0000000000000000_0000_71_00 = some (.validate 0x71#8) := by decide

/-- CH = 0x41 (`A`), header 000 0 0 1 01. -/
theorem test_decode_convchar : decodeTableWord 96 0x0000000000000000_0000_41_05 = some (.convchar true 0x41#8) := by decide

/-- N = 16, header 000 1 1 1 10. -/
theorem test_decode_convword :
    decodeTableWord 96 0x0000000000000000_0010_00_1E = some (.convword true true true 16#16) := by decide

/-- VAL = INT64_MIN, N = 20, header 000 0 0 1 11. -/
theorem test_decode_convnum :
    decodeTableWord 96 0x8000000000000000_0014_00_07 = some (.convnum true 20#16 0x8000000000000000#64) := by decide

/-- Section L2.6: all header bits 1. -/
theorem test_decode_reserved : decodeTableWord 96 0x0000000000000001_0003_41_FF = none := by decide

/-- The words of rows 2 and 3 of section L1.4 as `encode` writes them. -/
theorem test_encode :
    encode (.convword true true true 0#16) = 0x0000000000000000_0000_00_1E#96 ∧
    encode (.convchar false 0x41#8) = 0x0000000000000000_0000_41_01#96 := by decide

/-- Section L1.5, second row: `CONVNUM -42, OUT, 3`; and `CONVWORD IN, DEFAULT, OUT` of row W11. -/
theorem test_assemble :
    (assemble .convnum [.num (-42), .out, .num 3]).map encode = some 0xFFFFFFFFFFFFFFD6_0003_00_07#96 ∧
    (assemble .convword [.inp, .default, .out]).map encode = some 0x0000_00_0E#96 ∧
    assemble .convnum [.num 5, .out, .num 65536] = none := by decide

/-- Rule R56 on text: a comment, a synonym, a `;` that is quoted, a capacity too large. -/
theorem test_asmLine :
    asmLine "CONVNUM -42, OUT, 3 ; three slots".toList = some (.request (.convnum true 3#16 (BitVec.ofInt 64 (-42)))) ∧
    asmLine "ConvertChar ';', NULL".toList = some (.request (.convchar false 0x3B#8)) ∧
    asmLine "CONVNUM 5, OUT, 65536".toList = none := by decide

/-- Rule R56: initial buffers and requests, one a line. -/
theorem test_asmProgram :
    asmProgram "IN = \"12A\"\nOUT = [0xAA, 0xAA]\nCONVWORD IN, DEFAULT, OUT\nVALIDATE 0xC1".toList =
      some ⟨some [0x31#8, 0x32#8, 0x41#8], some [0xAA#8, 0xAA#8],
        [.convword true true false 0#16, .validate 0xC1#8]⟩ := by decide

/-! ## GLYPH and the ROM -/

/-- Rows of rule R62: the segments named there are the slot value given there. -/
theorem test_glyph_rows :
    [0x28#8, 0x2D#8, 0x36#8, 0x3C#8, 0x3D#8, 0x47#8, 0x5D#8, 0x5F#8, 0x67#8, 0x7A#8, 0x7C#8].map
        (slotOf defaultGlyph) =
      [segments [.a, .d, .e, .f], segments [.g], segments [.a, .c, .d, .e, .f, .g], segments [.a, .f, .g],
       segments [.d, .g], segments [.a, .c, .d, .e, .f], segments [.a, .b, .c, .d], segments [.d],
       segments [.a, .b, .c, .d, .f, .g], segments [.a, .b, .d, .e, .g], segments [.e, .f]] := by decide

/-- Rows of rule R62 as slot values, `A`, `E`, `R`, `Z`, `a`, `o`, `r`. -/
theorem test_glyph_letters :
    [0x41#8, 0x45#8, 0x52#8, 0x5A#8, 0x61#8, 0x6F#8, 0x72#8, 0x7B#8, 0x60#8, 0x2E#8].map (slotOf defaultGlyph) =
      [0x77#8, 0x79#8, 0x31#8, 0x5B#8, 0x5F#8, 0x5C#8, 0x50#8, 0#8, 0#8, 0#8] := by decide

/-- Section L2.5: the dense table of DIGITS_ERR with H_DEFAULT. -/
theorem test_rom_digitsErr :
    romOf (cfgOf .digitsErr .table) =
      [0x3F#8, 0x06#8, 0x5B#8, 0x4F#8, 0x66#8, 0x6D#8, 0x7D#8, 0x07#8, 0x7F#8, 0x6F#8, 0x31#8, 0x50#8, 0x79#8, 0x7B#8,
       0x3F#8, 0x5C#8, 0x40#8] := by decide

/-- Section L2.5: Strategy B for `7` and `-` under DIGITS. -/
theorem test_strategy_b :
    computedSlot (cfgOf .digits .computed) 0x37#8 = 0x07#8 ∧ computedSlot (cfgOf .digits .computed) 0x2D#8 = 0x40#8 := by
  decide +kernel

/-- Section L2.6: FULL with COMPUTED is refused at elaboration, DIGITS_ERR with COMPUTED is legal. -/
theorem test_illegal_config :
    (State.elaborate (cfgOf .full .computed)).refused = some .illegalConfig ∧
    (State.elaborate (cfgOf .digitsErr .computed)).refused = none := by decide +kernel

/-! ## The operations -/

/-- Section L2.1: `O` under DIGITS and DIGITS_ERR; the row `Unused fields` under FULL. -/
theorem test_validate :
    (after (digits [] []) 0x0000000000000000_0000_4F_00).rsp = some 0#32 ∧
    (after (digitsErr [] []) 0x0000000000000000_0000_4F_00).rsp = some 1#32 ∧
    (after (full [] (filler 1)) 0xFFFFFFFFFFFFFFFB_0007_41_1C).rsp = some 1#32 ∧
    slots (after (full [] (filler 1)) 0xFFFFFFFFFFFFFFFB_0007_41_1C) = [0xAA#8] := by decide

/-- Program P1, steps 1 and 2: `A` writes OUT[0] alone; a space then writes all-off. -/
theorem test_convchar :
    slots (after (full [] (filler 2)) 0x0000000000000000_0000_41_05) = [0x77#8, 0xAA#8] ∧
    (after (full [] [0x77#8, 0xAA#8]) 0x0000000000000000_0000_20_05).rsp = some 0#32 ∧
    slots (after (full [] [0x77#8, 0xAA#8]) 0x0000000000000000_0000_20_05) = [0x00#8, 0xAA#8] := by decide

/-- Section L2.2: `-` under DIGITS with Strategy B (rule R59). -/
theorem test_convchar_minus :
    slots (after (digits [] (filler 1)) 0x0000000000000000_0000_2D_05) = [0x40#8] := by decide +kernel

/-- Row W15: "Error 5" under DIGITS_ERR stops at the space. -/
theorem test_convword :
    (after (digitsErr [0x45, 0x72, 0x72, 0x6F, 0x72, 0x20, 0x35, 0x00] (filler 8)) 0x0010_00_1E).rsp = some 0x00050000#32 ∧
    slots (after (digitsErr [0x45, 0x72, 0x72, 0x6F, 0x72, 0x20, 0x35, 0x00] (filler 8)) 0x0010_00_1E) =
      [0x79#8, 0x50#8, 0x50#8, 0x5C#8, 0x50#8, 0x00#8, 0xAA#8, 0xAA#8] := by decide

/-- Program P4, step 2: "Hi" with L = 3 reads IN[2]: a fault, no response, OUT[3] unchanged. -/
theorem test_convword_fault :
    (after (full [0x48#8, 0x69#8] (filler 4)) 0x0003_00_1E).faulted = some .outOfBuffer ∧
    (after (full [0x48#8, 0x69#8] (filler 4)) 0x0003_00_1E).rsp = none ∧
    (after (full [0x48#8, 0x69#8] (filler 4)) 0x0003_00_1E).outBuf.read 3 = some 0xAA#8 := by decide

/-- Row N23: INT64_MIN needs 20 slots. -/
theorem test_convnum :
    (after (full [] (filler 20)) 0x8000000000000000_0014_00_07).rsp = some 1#32 ∧
    slots (after (full [] (filler 20)) 0x8000000000000000_0014_00_07) =
      [0x40#8, 0x6F#8, 0x5B#8, 0x5B#8, 0x4F#8, 0x4F#8, 0x07#8, 0x5B#8, 0x3F#8, 0x4F#8, 0x7D#8, 0x7F#8, 0x6D#8, 0x66#8,
       0x07#8, 0x07#8, 0x6D#8, 0x7F#8, 0x3F#8, 0x7F#8] := by decide

/-- Rows N11 and N26: too small a buffer (class 3) and capacity 0 (class 1) write nothing. -/
theorem test_convnum_failures :
    (after (full [] (filler 2)) 0xFFFFFFFFFFFFFFF6_0002_00_07).cls = some .bufferTooSmall ∧
    slots (after (full [] (filler 2)) 0xFFFFFFFFFFFFFFF6_0002_00_07) = filler 2 ∧
    (after (full [] (filler 1)) 0x0000000000000005_0000_00_07).cls = some .invalidArgument := by decide

/-- Section L2.2, header 0x25: refused, OUT unchanged. -/
theorem test_reserved_bits :
    (after (full [] (filler 1)) 0x0000000000000000_0000_41_25).refused = some .reservedBits ∧
    (after (full [] (filler 1)) 0x0000000000000000_0000_41_25).rsp = none ∧
    slots (after (full [] (filler 1)) 0x0000000000000000_0000_41_25) = [0xAA#8] := by decide

/-- The instance after reset answers a request (VALIDATE `A`). -/
theorem test_reset_runs : (after State.reset 0x0000000000000000_0000_41_00).rsp = some 1#32 := by decide

/-! ## Witnesses: a concrete case that meets the hypotheses of each statement -/

theorem covers_one (m : Memory) (v : Byte) (h : m.read 0 = some v) : m.Covers 1 := by
  intro j hj
  obtain rfl : j = 0 := by omega
  simp [h]

/-- IN = "12A", OUT of three slots, DIGITS. -/
def oneTwoA : State := digits [0x31#8, 0x32#8, 0x41#8] (filler 3)

/-- IN = "12", OUT of two slots, FULL. -/
def oneTwo : State := full [0x31#8, 0x32#8] (filler 2)

theorem oneTwoA_converts : ConvertsUpTo oneTwoA 2 := by
  intro j hj
  match j, hj with
  | 0, _ => exact ⟨0x31#8, by decide⟩
  | 1, _ => exact ⟨0x32#8, by decide⟩

theorem oneTwo_converts : ConvertsUpTo oneTwo 2 := by
  intro j hj
  match j, hj with
  | 0, _ => exact ⟨0x31#8, by decide⟩
  | 1, _ => exact ⟨0x32#8, by decide⟩

theorem witness_DecodeEncodeRoundTrip :
    (Instr.convword true true true 65535#16).WellFormed ∧ (Instr.convword true true false 0#16).WellFormed := by decide

theorem witness_DecodedRequestsAreWellFormed : decode 0x0007411C#96 = .ok (.validate 0x41#8) := by rfl

theorem witness_OperationSelectedByOp :
    0x411C#96 &&& 0xE3#96 = 0#96 ∧ 0x4105#96 &&& 0xE3#96 = 1#96 ∧ 0x3001E#96 &&& 0xE3#96 = 2#96 ∧
    Req.leng 0x3001E#96 = true ∧ 0x30007#96 &&& 0xE3#96 = 3#96 ∧ 0x34187#96 &&& 0xE0#96 ≠ 0#96 := by decide

/-- CONVWORD with LENG = 0: CH, N and VAL differ and are not used. -/
theorem witness_UnusedFieldsIgnored :
    Req.reserved 0x0E#96 = Req.reserved 0x5_FFFF_41_0E#96 ∧ Req.op 0x0E#96 = Req.op 0x5_FFFF_41_0E#96 ∧
    Req.outp 0x0E#96 = Req.outp 0x5_FFFF_41_0E#96 ∧ Req.inp 0x0E#96 = Req.inp 0x5_FFFF_41_0E#96 ∧
    Req.leng 0x0E#96 = Req.leng 0x5_FFFF_41_0E#96 ∧ Req.leng 0x0E#96 = false ∧ Req.op 0x0E#96 = 2#2 := by decide

theorem witness_ReservedBitsRefused : Req.reserved 0x25#96 ≠ 0#3 ∧ (full [] []).refused = none := by decide

theorem witness_AssemblyCoversWellFormedRequests :
    assemble .convchar [.char 0x41#8, .null] = some (.convchar false 0x41#8) ∧
    (Instr.convword false true false 0#16).WellFormed := by decide

theorem witness_RangeSets :
    inRange .digits 0x30#8 = true ∧ inRange .digitsErr 0x6F#8 = true ∧ (0x80#8).getLsbD 7 = true := by decide

theorem witness_DefaultsAreAdmissible : inRange .full 0xFF#8 = false := by decide

theorem witness_IllegalConfigurationsRefused :
    (State.elaborate (cfgOf .full .computed)).refused = some .illegalConfig := by decide

theorem witness_EncodingRomContents :
    (cfgOf .digits .computed).strategy = .computed ∧ (cfgOf .full .table).strategy = .table ∧
    (cfgOf .full .table).range = .full ∧ (cfgOf .digits .table).range = .digits ∧
    (cfgOf .digitsErr .table).range = .digitsErr ∧ errIndexAdmissible (cfgOf .digitsErr .table).errIndex = true := by decide

theorem witness_StrategiesEquivalent :
    (cfgOf .digitsErr .table).range ≠ .full ∧ glyphAdmissible (cfgOf .digitsErr .table).glyph = true ∧
    errIndexAdmissible (cfgOf .digitsErr .table).errIndex = true ∧
    inRange (cfgOf .digitsErr .table).range 0x6F#8 = true :=
  ⟨by decide, resetGlyph_admissible, by decide, by decide⟩

theorem witness_ProviderGivesGlyph :
    cfgLegal (cfgOf .full .table) = true ∧ inRange (cfgOf .full .table).range 0x7C#8 = true ∧
    inRange (cfgOf .full .table).range 0x7D#8 = false :=
  ⟨legal_cfgOf (by decide), by decide, by decide⟩

theorem witness_StrategyUnobservable :
    (digits [] (filler 1)).Sound ∧ cfgLegal (cfgOf .digits .table) = true ∧
    (cfgOf .digits .table).range = (digits [] (filler 1)).cfg.range ∧
    (cfgOf .digits .table).maxWordLen = (digits [] (filler 1)).cfg.maxWordLen ∧
    (cfgOf .digits .table).glyph = (digits [] (filler 1)).cfg.glyph :=
  ⟨sound_digits _ _, legal_cfgOf (by decide), rfl, rfl, rfl⟩

theorem witness_ConvcharRoundTripAndRejection :
    (full [] (filler 1)).Sound ∧ inRange (full [] (filler 1)).cfg.range 0x41#8 = true ∧
    inRange (full [] (filler 1)).cfg.range 0x20#8 = false ∧ (full [] (filler 1)).outBuf.Covers 1 :=
  ⟨sound_full _ _, by decide, by decide, covers_one _ 0xAA#8 (by decide)⟩

theorem witness_ConvcharFailureClasses : (full [] (filler 1)).Sound ∧ (full [] (filler 1)).outBuf.Covers 1 :=
  ⟨sound_full _ _, covers_one _ 0xAA#8 (by decide)⟩

theorem witness_ConvcharFrame :
    ∃ t, exec (.convchar true 0x41#8) (full [] (filler 2)) = .next t := ⟨_, rfl⟩

theorem witness_ConvcharFaultsWithoutSlot : (full [] []).Sound ∧ (full [] []).outBuf.read 0 = none :=
  ⟨sound_full _ _, by decide⟩

theorem witness_ConvwordNullOrZeroLength :
    wordBound (full [] []).cfg true 0#16 = 0 ∧ (full [] []).overlap = false := by decide

theorem witness_ConvwordStopsAtBound :
    oneTwo.Sound ∧ oneTwo.overlap = false ∧ 0 < wordBound oneTwo.cfg true 2#16 ∧
    ConvertsUpTo oneTwo (wordBound oneTwo.cfg true 2#16) :=
  ⟨sound_full _ _, by decide, by decide, oneTwo_converts⟩

/-- "12" and the terminator, bound 3; and the terminator first (k = 0). -/
theorem witness_ConvwordStopsAtTerminator :
    (full [0x00#8] []).Sound ∧ (full [0x00#8] []).overlap = false ∧ 0 < wordBound (full [0x00#8] []).cfg false 0#16 ∧
    ConvertsUpTo (full [0x00#8] []) 0 ∧ (full [0x00#8] []).inBuf.read 0 = some 0x00#8 :=
  ⟨sound_full _ _, by decide, by decide, fun j hj => absurd hj (by omega), by decide⟩

theorem witness_ConvwordStopsAtUnsupported :
    oneTwoA.Sound ∧ oneTwoA.overlap = false ∧ 2 < wordBound oneTwoA.cfg true 3#16 ∧ ConvertsUpTo oneTwoA 2 ∧
    oneTwoA.inBuf.read 2 = some 0x41#8 ∧ 0x41#8 ≠ 0x00#8 ∧ inRange oneTwoA.cfg.range 0x41#8 = false ∧
    (oneTwoA.outBuf.read 2).isSome = true :=
  ⟨sound_digits _ _, by decide, by decide, oneTwoA_converts, by decide⟩

theorem witness_ConvwordSlotsAfterCount :
    (full [0x41#8, 0x00#8] (filler 1)).Sound ∧
    ∃ t w, exec (.convword true true true 5#16) (full [0x41#8, 0x00#8] (filler 1)) = .next t ∧ t.rsp = some w :=
  ⟨sound_full _ _, _, _, rfl, rfl⟩

/-- Row W5 (the read of IN[2]) and row W10 (the write of OUT[1], here at index 2). -/
theorem witness_ConvwordFaultsPastBuffers :
    oneTwo.Sound ∧ oneTwo.overlap = false ∧ 2 < wordBound oneTwo.cfg true 3#16 ∧ ConvertsUpTo oneTwo 2 ∧
    oneTwo.inBuf.read 2 = none :=
  ⟨sound_full _ _, by decide, by decide, oneTwo_converts, by decide⟩

theorem witness_ConvwordFaultsPastBuffers_write :
    ConvertsUpTo (full [0x3F#8] []) 0 ∧ (full [0x3F#8] []).inBuf.read 0 = some 0x3F#8 ∧ 0x3F#8 ≠ 0x00#8 ∧
    (full [0x3F#8] []).outBuf.read 0 = none :=
  ⟨fun j hj => absurd hj (by omega), by decide⟩

theorem witness_NarrowerRangeCountsNoMore :
    (digitsErr [0x31#8, 0x45#8, 0x00#8] (filler 2)).Sound ∧ cfgLegal (cfgOf .full .table) = true ∧
    (cfgOf .full .table).maxWordLen = (digitsErr [0x31#8, 0x45#8, 0x00#8] (filler 2)).cfg.maxWordLen ∧
    (∀ c, inRange (digitsErr [0x31#8, 0x45#8, 0x00#8] (filler 2)).cfg.range c = true →
      inRange (cfgOf .full .table).range c = true) ∧
    ∃ t t' w w', exec (.convword true true true 3#16) (digitsErr [0x31#8, 0x45#8, 0x00#8] (filler 2)) = .next t ∧
      exec (.convword true true true 3#16)
        { digitsErr [0x31#8, 0x45#8, 0x00#8] (filler 2) with
          cfg := cfgOf .full .table, rom := romOf (cfgOf .full .table) } = .next t' ∧
      t.rsp = some w ∧ t'.rsp = some w' :=
  ⟨sound_digitsErr _ _, legal_cfgOf (by decide), rfl, inRange_of_digitsErr, _, _, _, _, rfl, rfl, rfl, rfl⟩

/-- "A" with COUNT = 1 and bound 1: IN[1] is not read; and a CONVCHAR. -/
theorem witness_InputReadFootprint :
    (∃ t, exec (.convword true true true 1#16) (full [0x41#8] (filler 1)) = .next t ∧ t.rsp = some 0x10000#32) ∧
    ∃ t, exec (.convchar true 0x41#8) (full [] (filler 1)) = .next t :=
  ⟨⟨_, rfl, by decide⟩, _, rfl⟩

theorem witness_OverlapRefusedForConvwordOnly :
    ({ full [] [] with overlap := true } : State).overlap = true ∧
    exec (.convword true true true 1#16) { full [] [] with overlap := true } = .refused .bufferOverlap :=
  ⟨rfl, rfl⟩

theorem witness_DigitCountIsLeast : 2 ^ 63 ≤ 2 ^ 63 ∧ 10 ^ (19 - 1) ≤ 2 ^ 63 ∧ 2 ^ 63 < 10 ^ 19 := by decide

theorem witness_PowersOfTenFit : 0 ≤ 19 ∧ 19 ≤ 19 := by decide

theorem witness_ComparisonChainCountsDigits : 9 ≤ 2 ^ 63 ∧ 9 < 10 ∧ 2 ^ 63 ≤ 2 ^ 63 := by decide

/-- 0 has the one digit 0; 2^63 has 19 digits. -/
theorem witness_DigitsSpellMagnitude :
    0 < digitCount 0 ∧ digit 0 0 = 0 ∧ 18 < digitCount (2 ^ 63) ∧ 2 ^ 63 ≤ 2 ^ 63 := by decide

/-- `-0` has the text of `0`: the one operand 0. -/
theorem witness_DecimalTextDeterminesOperand : numText (BitVec.ofInt 64 (-0)) = numText 0#64 := by decide

theorem witness_ConvnumWritesDecimalText :
    (full [] (filler 3)).Sound ∧ requiredLen (BitVec.ofInt 64 (-42)) ≤ (3#16).toNat ∧
    (full [] (filler 3)).outBuf.Covers (requiredLen (BitVec.ofInt 64 (-42))) ∧ (BitVec.ofInt 64 (-42)).toInt < 0 ∧
    requiredLen 123#64 ≤ (3#16).toNat ∧ (full [] (filler 3)).outBuf.Covers (requiredLen 123#64) ∧
    0 ≤ (123#64).toInt := by
  have h : (full [] (filler 3)).outBuf.Covers 3 := by
    intro j hj
    match j, hj with
    | 0, _ => decide
    | 1, _ => decide
    | 2, _ => decide
  exact ⟨sound_full _ _, by decide, h, by decide, by decide, h, by decide⟩

theorem witness_ConvnumFailureOrder : 2#16 ≠ 0#16 ∧ (2#16).toNat < requiredLen (BitVec.ofInt 64 (-10)) := by decide

theorem witness_ConvnumAllOrNothing : ∃ t, exec (.convnum true 1#16 7#64) (full [] (filler 1)) = .next t := ⟨_, rfl⟩

/-- Row N30: OUT[5] is the first missing slot. -/
theorem witness_ConvnumFaultsPastOutput :
    (full [] (filler 5)).Sound ∧ requiredLen 0x8000000000000000#64 ≤ (20#16).toNat ∧
    5 < requiredLen 0x8000000000000000#64 ∧ (full [] (filler 5)).outBuf.read 5 = none :=
  ⟨sound_full _ _, by decide, by decide, by decide⟩

theorem witness_ConvnumIndependentOfRange :
    (full [] (filler 1)).Sound ∧ cfgLegal (cfgOf .digits .computed) = true ∧
    (cfgOf .digits .computed).glyph = (full [] (filler 1)).cfg.glyph :=
  ⟨sound_full _ _, legal_cfgOf (by decide), rfl⟩

theorem witness_TransactionFrame : ∃ t, exec (.validate 0x41#8) (full [] []) = .next t := ⟨_, rfl⟩

theorem witness_UndefinedResponseBitsAreZero :
    ∃ t, exec (.convword true true true 2#16) oneTwo = .next t ∧ t.rsp = some 0x20000#32 := ⟨_, rfl, by decide⟩

theorem witness_WrittenSlotsClearReservedBit :
    cfgLegal (cfgOf .full .table) = true ∧ (full [] (filler 1)).Sound ∧
    ∃ t, exec (.convchar true 0x20#8) (full [] (filler 1)) = .next t :=
  ⟨legal_cfgOf (by decide), sound_full _ _, _, rfl⟩

theorem witness_OutputNeverRead :
    (Memory.ofBytes [0x00#8, 0x01#8]).map Prod.fst = oneTwo.outBuf.map Prod.fst := by decide

theorem witness_InternalInvariantUnreachable : oneTwo.Sound := sound_full _ _

theorem witness_CallerDutyPreventsFaults :
    (full [] (filler 1)).Sound ∧ CallerDuty (full [] (filler 1)) (.convchar true 0x41#8) :=
  ⟨sound_full _ _, fun _ => covers_one _ 0xAA#8 (by decide)⟩

/-- A pending request `CONVCHAR 'A', OUT`, with a slot and without one. -/
def waiting (ys : List Byte) : State := { full [] ys with pending := [.request 0x4105#96 .undisturbed] }

theorem witness_StepRunsDecodedRequest :
    (waiting (filler 1)).pending = [.request 0x4105#96 .undisturbed] ∧
    (waiting (filler 1)).refused ≠ some .illegalConfig ∧ decode 0x4105#96 = .ok (.convchar true 0x41#8) :=
  ⟨rfl, by decide, rfl⟩

theorem witness_StepKeepsInvariant : (waiting (filler 1)).Inv ∧ ∃ t, step (waiting (filler 1)) = .next t :=
  ⟨⟨by decide, by decide, rfl, Or.inl (legal_cfgOf (by decide))⟩, _, rfl⟩

theorem witness_ResetChangesNoArchitecturalState :
    ({ full [] (filler 1) with pending := [.reset] } : State).pending = .reset :: [] := rfl

/-- A transaction that would have answered, one that would have faulted, and a CONVWORD without an output. -/
theorem witness_ResetDuringTransaction :
    (full [] (filler 2)).refused ≠ some .illegalConfig ∧ decode 0x4105#96 = .ok (.convchar true 0x41#8) ∧
    (∀ r, exec (.convchar true 0x41#8) (full [] (filler 2)) ≠ .refused r) ∧
    (full [] []).refused ≠ some .illegalConfig ∧ (∀ r, exec (.convchar true 0x41#8) (full [] []) ≠ .refused r) ∧
    exec (.convchar true 0x41#8) (full [] []) = .fault .outOfBuffer ∧ (false = false ∨ true = false) :=
  ⟨by decide, rfl, nofun, by decide, nofun, rfl, Or.inl rfl⟩

/-- Rule R110: a reset that arrives first abandons a CONVWORD that would have faulted; `faulted` stays false, OUT[3] is kept. -/
theorem test_reset_before_fault :
    (transact 0x0003_00_1E#96 .resetArrives (full [0x48#8, 0x69#8] (filler 4))).faulted = none ∧
    (transact 0x0003_00_1E#96 .resetArrives (full [0x48#8, 0x69#8] (filler 4))).rsp = none ∧
    (transact 0x0003_00_1E#96 .resetArrives (full [0x48#8, 0x69#8] (filler 4))).outBuf.read 3 = some 0xAA#8 := by decide

theorem witness_FaultIsRecorded :
    (full [] []).refused ≠ some .illegalConfig ∧ Interference.undisturbed ≠ .agentAccess ∧
    Interference.undisturbed ≠ .resetArrives ∧
    decode 0x4105#96 = .ok (.convchar true 0x41#8) ∧ exec (.convchar true 0x41#8) (full [] []) = .fault .outOfBuffer ∧
    (full [] []).faulted = none :=
  ⟨by decide, by decide, by decide, rfl, rfl, rfl⟩

theorem witness_MarksNeverCleared :
    ({ full [] [] with faulted := some .outOfBuffer, refused := some .reservedBits } : State).faulted.isSome = true ∧
    ∃ t, step { full [] [] with faulted := some .outOfBuffer, refused := some .reservedBits } = .next t :=
  ⟨rfl, _, rfl⟩

theorem witness_ConfigurationRomAndInputConstant :
    (∀ xs ys o rest, (waiting (filler 1)).pending ≠ .bind xs ys o :: rest) ∧
    ∃ t, step (waiting (filler 1)) = .next t :=
  ⟨by intro xs ys o rest h; simp [waiting] at h, _, rfl⟩

theorem witness_ConcurrentAccessRefused :
    (full [] (filler 1)).refused = none ∧ decode 0x4105#96 = .ok (.convchar true 0x41#8) := ⟨rfl, rfl⟩

theorem witness_BoundBuffersHoldTheirBytes :
    ({ full [] [] with pending := [.bind [0x31#8] (filler 1) false] } : State).pending =
      .bind [0x31#8] (filler 1) false :: [] := rfl

end Sys2Proof.Tests
end

/-! PROOFS. 00_scope.md: the strategy of the Table Provider is unobservable (rule R11), and a step runs the decoded request
(rule R6). -/

namespace Sys2Proof.Machine

/-! ## The Table Provider gives GLYPH -/

/-- Strategy B gives GLYPH on the active range: the one member equal to `c` is `c` itself, and bit 7 of an admissible entry is
clear (40_table_provider.md rules R61 and R70). -/
theorem computedSlot_eq_glyphOf {cfg : Cfg} {c : Byte} (hg : glyphAdmissible cfg.glyph = true)
    (hc : inRange cfg.range c = true) : computedSlot cfg c = glyphOf cfg c := by
  obtain ⟨-, hbit7, -⟩ := (glyphAdmissible_iff cfg.glyph).1 hg
  have hany : ∀ x, ((members cfg.range).any fun k => (glyphOf cfg k).getLsbD x && c == k) =
      (glyphOf cfg c).getLsbD x := by
    intro x
    rw [Bool.eq_iff_iff, List.any_eq_true]
    constructor
    · rintro ⟨k, -, hk⟩
      obtain ⟨hx, hck⟩ := Bool.and_eq_true_iff.1 hk
      rwa [eq_of_beq hck]
    · exact fun hx => ⟨c, (mem_members _ _).2 hc, by simp [hx]⟩
  apply BitVec.eq_of_getLsbD_eq
  intro x hx
  simp only [computedSlot, BitVec.getLsbD_ofFnLE, hx, dif_pos, hany]
  by_cases h7 : x < 7
  · simp [h7]
  · obtain rfl : x = 7 := by omega
    exact (hbit7 c).symm

@[simp] theorem digitEntries_length (cfg : Cfg) : (digitEntries cfg).length = 10 := by simp [digitEntries]

@[simp] theorem errEntries_length (cfg : Cfg) : (errEntries cfg).length = 6 := by simp [errEntries]

/-- The first ten entries of a dense table are those of the digits (40_table_provider.md rules R66 and R67). -/
@[simp] theorem digitEntries_getElem (cfg : Cfg) {k : Nat} (hk : k < (digitEntries cfg).length) :
    (digitEntries cfg)[k] = glyphOf cfg (digitChar k) := by
  simp [digitEntries]

/-- A digit character is the one its value spells (30_encoding.md rule R45). -/
theorem digitChar_of_isDigitChar {c : Byte} (h : isDigitChar c = true) :
    c.toNat - 0x30 < 10 ∧ digitChar (c.toNat - 0x30) = c := by
  simp only [isDigitChar, between, Bool.and_eq_true, Nat.ble_eq] at h
  refine ⟨by omega, ?_⟩
  rw [digitChar, show 0x30 + (c.toNat - 0x30) = c.toNat by omega, BitVec.ofNat_toNat, BitVec.setWidth_eq]

/-- H has a value on every error glyph. -/
theorem errIndexOf_isSome {h : ErrIndex} {c : Byte} (hc : c ∈ errChars) : ∃ k, errIndexOf h c = some k := by
  simp only [errChars, List.mem_cons, List.not_mem_nil, or_false] at hc
  rcases hc with rfl | rfl | rfl | rfl | rfl | rfl <;> exact ⟨_, rfl⟩

/-- A value of H stands beside its error glyph. -/
theorem errIndexOf_mem {h : ErrIndex} {c : Byte} {k : Nat} (hk : errIndexOf h c = some k) :
    (c, k) ∈ errChars.zip (errIndices h) := by
  obtain ⟨l₁, l₂, heq, -⟩ := List.lookup_eq_some_iff.1 hk
  simp [heq]

/-- An admissible H has values below 6 (40_table_provider.md rule R68). -/
theorem errIndexOf_lt {h : ErrIndex} {c : Byte} {k : Nat} (ha : errIndexAdmissible h = true)
    (hk : errIndexOf h c = some k) : k < 6 :=
  ((errIndexAdmissible_iff h).1 ha).2 k (List.of_mem_zip (errIndexOf_mem hk)).2

/-- An admissible H is injective on the error glyphs (40_table_provider.md rule R68). -/
theorem errIndexOf_injective {h : ErrIndex} {c d : Byte} {k : Nat} (ha : errIndexAdmissible h = true)
    (hc : errIndexOf h c = some k) (hd : errIndexOf h d = some k) : c = d := by
  obtain ⟨hnodup, -⟩ := (errIndexAdmissible_iff h).1 ha
  obtain ⟨i, hi, hci⟩ := List.getElem_of_mem (errIndexOf_mem hc)
  obtain ⟨j, hj, hdj⟩ := List.getElem_of_mem (errIndexOf_mem hd)
  simp only [List.getElem_zip, Prod.mk.injEq] at hci hdj
  obtain rfl : i = j := (hnodup.getElem_inj_iff).1 (hci.2.trans hdj.2.symm)
  exact hci.1.symm.trans hdj.1

/-- The dense entry at `H(c)` is the one of the error glyph `c` (40_table_provider.md rule R67). -/
theorem errEntries_getElem {cfg : Cfg} {c : Byte} {k : Nat} (ha : errIndexAdmissible cfg.errIndex = true)
    (hc : c ∈ errChars) (hk : errIndexOf cfg.errIndex c = some k) {hlt : k < (errEntries cfg).length} :
    (errEntries cfg)[k] = glyphOf cfg c := by
  have hfind : (errChars.find? fun d => errIndexOf cfg.errIndex d == some k) = some c := by
    obtain ⟨d, hd⟩ := Option.isSome_iff_exists.1
      (List.find?_isSome (p := fun d => errIndexOf cfg.errIndex d == some k).2 ⟨c, hc, by simp [hk]⟩)
    have hdk : (errIndexOf cfg.errIndex d == some k) = true :=
      List.find?_some (p := fun d => errIndexOf cfg.errIndex d == some k) hd
    rw [hd, errIndexOf_injective ha (eq_of_beq hdk) hk]
  simp [errEntries, hfind]

/-- Strategy A gives GLYPH on the DIGITS range (40_table_provider.md rules R65 and R66). -/
theorem provideTable_digits {cfg : Cfg} {c : Byte} (hs : cfg.strategy = .table) (hr : cfg.range = .digits)
    (hc : inRange .digits c = true) : provideTable cfg (romOf cfg) c = some (glyphOf cfg c) := by
  by_cases hm : c = minusChar
  · simp [provideTable, romIndex, romOf, hs, hr, hm]
  · have hdigit : isDigitChar c = true := by simpa [inRange, hm] using hc
    obtain ⟨hk, hchar⟩ := digitChar_of_isDigitChar hdigit
    simp [provideTable, romIndex, romOf, hs, hr, hm, List.getElem?_append_left, hk, hchar]

/-- Strategy A gives GLYPH on the DIGITS_ERR range (40_table_provider.md rules R65 and R67). -/
theorem provideTable_digitsErr {cfg : Cfg} {c : Byte} (hs : cfg.strategy = .table) (hr : cfg.range = .digitsErr)
    (ha : errIndexAdmissible cfg.errIndex = true) (hc : inRange .digitsErr c = true) :
    provideTable cfg (romOf cfg) c = some (glyphOf cfg c) := by
  by_cases hm : c = minusChar
  · simp [provideTable, romIndex, romOf, hs, hr, hm]
  · by_cases he : c ∈ errChars
    · obtain ⟨k, hk⟩ := errIndexOf_isSome (h := cfg.errIndex) he
      have hlt := errIndexOf_lt ha hk
      simp [provideTable, romIndex, romOf, hs, hr, hm, he, hk, List.getElem?_append, hlt, errEntries_getElem ha he hk]
    · have hdigit : isDigitChar c = true := by simpa [inRange, hm, he] using hc
      obtain ⟨hk, hchar⟩ := digitChar_of_isDigitChar hdigit
      simp [provideTable, romIndex, romOf, hs, hr, hm, he, List.getElem?_append, hk, hchar]

/-- Strategy A gives GLYPH on the FULL range (40_table_provider.md rule R64). -/
theorem provideTable_full {cfg : Cfg} (c : Byte) (hs : cfg.strategy = .table) (hr : cfg.range = .full) :
    provideTable cfg (romOf cfg) c = some (glyphOf cfg c) := by
  simp [provideTable, romIndex, romOf, hs, hr, glyphOf, slotOf, c.isLt]

/-- Strategy A gives GLYPH on the active range (40_table_provider.md rules R64 to R67). -/
theorem provideTable_romOf {cfg : Cfg} {c : Byte} (hs : cfg.strategy = .table)
    (ha : errIndexAdmissible cfg.errIndex = true) (hc : inRange cfg.range c = true) :
    provideTable cfg (romOf cfg) c = some (glyphOf cfg c) := by
  cases hr : cfg.range with
  | digits => exact provideTable_digits hs hr (hr ▸ hc)
  | digitsErr => exact provideTable_digitsErr hs hr ha (hr ▸ hc)
  | full => exact provideTable_full c hs hr

/-- The provider of a legal configuration gives GLYPH on the active range, whatever its strategy and H
(40_table_provider.md rules R63 and R71). -/
theorem provide_inRange {cfg : Cfg} {c : Byte} (hl : cfgLegal cfg = true) (hc : inRange cfg.range c = true) :
    provide cfg (romOf cfg) c = some (glyphOf cfg c) := by
  obtain ⟨hnot, hg, ha⟩ := (cfgLegal_iff cfg).1 hl
  cases hs : cfg.strategy with
  | table => simp [provide, hc, hs, provideTable_romOf hs ha hc]
  | computed =>
    cases hr : cfg.range with
    | full => exact absurd ⟨hr, hs⟩ hnot
    | digits => simpa [provide, hs, hr, hr ▸ hc] using computedSlot_eq_glyphOf hg hc
    | digitsErr => simpa [provide, hs, hr, hr ▸ hc] using computedSlot_eq_glyphOf hg hc

/-- Outside the active range the provider gives nothing (40_table_provider.md rule R63). -/
theorem provide_outOfRange {cfg : Cfg} {c : Byte} (rom : List Slot) (hc : inRange cfg.range c = false) :
    provide cfg rom c = none := by
  simp [provide, hc]

/-- Legal configurations with the same range and GLYPH have the same provider (40_table_provider.md rule R71). -/
theorem provide_eq_of_same_glyph {cfg cfg' : Cfg} (hl : cfgLegal cfg = true) (hl' : cfgLegal cfg' = true)
    (hr : cfg.range = cfg'.range) (hg : cfg.glyph = cfg'.glyph) (c : Byte) :
    provide cfg (romOf cfg) c = provide cfg' (romOf cfg') c := by
  cases hc : inRange cfg.range c with
  | false => rw [provide_outOfRange _ hc, provide_outOfRange _ (hr ▸ hc)]
  | true => rw [provide_inRange hl hc, provide_inRange hl' (hr ▸ hc), glyphOf, glyphOf, hg]

/-! ## States that convert alike -/

/-- A conversion depends on the state through the active range and the provider alone. -/
theorem convertInto_congr {s t : State} (hr : s.cfg.range = t.cfg.range)
    (hp : ∀ c, provide s.cfg s.rom c = provide t.cfg t.rom c) (c : Byte) (i : Nat) (out : Memory) :
    convertInto s c i out = convertInto t c i out := by
  rw [convertInto, convertInto, hr, hp]

/-- A scan depends on the state through IN and the conversions alone. -/
theorem scanWord_congr {s t : State} (hin : s.inBuf = t.inBuf)
    (hc : ∀ c i out, convertInto s c i out = convertInto t c i out) (k i : Nat) (out : Memory) :
    scanWord s k i out = scanWord t k i out := by
  induction k generalizing i out with
  | zero => rfl
  | succ k ih => simp only [scanWord, hin, hc, ih]

/-- Writing a text depends on the state through the conversions of its characters alone. -/
theorem writeText_congr {s t : State} {text : List Byte}
    (hc : ∀ c ∈ text, ∀ i out, convertInto s c i out = convertInto t c i out) (i : Nat) (out : Memory) :
    writeText s text i out = writeText t text i out := by
  induction text generalizing i out with
  | nil => rfl
  | cons c text ih =>
    simp only [writeText, hc c List.mem_cons_self, ih fun d hd => hc d (List.mem_cons_of_mem c hd)]

/-! ## The same transaction under another configuration -/

/-- The instance with another configuration, the ROM its own, and everything else as it is. -/
def State.reconfigure (s : State) (cfg : Cfg) : State := { s with cfg := cfg, rom := romOf cfg }

@[simp] theorem State.reconfigure_cfg (s : State) (cfg : Cfg) : (s.reconfigure cfg).cfg = cfg := rfl
@[simp] theorem State.reconfigure_rom (s : State) (cfg : Cfg) : (s.reconfigure cfg).rom = romOf cfg := rfl
@[simp] theorem State.reconfigure_inBuf (s : State) (cfg : Cfg) : (s.reconfigure cfg).inBuf = s.inBuf := rfl
@[simp] theorem State.reconfigure_outBuf (s : State) (cfg : Cfg) : (s.reconfigure cfg).outBuf = s.outBuf := rfl
@[simp] theorem State.reconfigure_overlap (s : State) (cfg : Cfg) : (s.reconfigure cfg).overlap = s.overlap := rfl

/-- A response and a reconfiguration do not touch the same fields. -/
@[simp] theorem State.reconfigure_respond (s : State) (cfg : Cfg) (out : Memory) (w : Rsp) (c : FailureClass) :
    (s.reconfigure cfg).respond out w c = (s.respond out w c).reconfigure cfg := rfl

/-- The same outcome, its next state reconfigured. -/
@[simp] def reconfigureOutcome (cfg : Cfg) : Host.Outcome State Fault Refusal → Host.Outcome State Fault Refusal
  | .next t => .next (t.reconfigure cfg)
  | .fault f => .fault f
  | .refused r => .refused r

/-- What an operation can see of a configuration: the range, MAX_WORD_LEN, and how characters are converted. -/
structure SameView (s : State) (cfg : Cfg) : Prop where
  range      : cfg.range = s.cfg.range
  maxWordLen : cfg.maxWordLen = s.cfg.maxWordLen
  convert    : ∀ c i out, convertInto (s.reconfigure cfg) c i out = convertInto s c i out

/-- A legal configuration with the same RANGE, MAX_WORD_LEN and GLYPH looks the same to a sound instance: STRATEGY and H are
not in view because both providers give GLYPH (40_table_provider.md rule R71). -/
theorem sameView_of_same_glyph {s : State} {cfg : Cfg} (hs : s.Sound) (hl : cfgLegal cfg = true)
    (hr : cfg.range = s.cfg.range) (hm : cfg.maxWordLen = s.cfg.maxWordLen) (hg : cfg.glyph = s.cfg.glyph) :
    SameView s cfg where
  range := hr
  maxWordLen := hm
  convert := convertInto_congr hr fun c => by
    simpa [hs.romEq] using provide_eq_of_same_glyph hl hs.legal hr hg c

section

variable {s : State} {cfg : Cfg} (hv : SameView s cfg)
include hv

theorem execValidate_reconfigure (ch : Byte) :
    execValidate ch (s.reconfigure cfg) = reconfigureOutcome cfg (execValidate ch s) := by
  simp [execValidate, hv.range]

theorem execConvchar_reconfigure (outp : Bool) (ch : Byte) :
    execConvchar outp ch (s.reconfigure cfg) = reconfigureOutcome cfg (execConvchar outp ch s) := by
  cases outp with
  | false => rfl
  | true =>
    simp only [execConvchar, hv.convert, State.reconfigure_outBuf, if_true]
    match convertInto s ch 0 s.outBuf with
    | .error _ => rfl
    | .ok (_, true) => rfl
    | .ok (_, false) => rfl

theorem execConvword_reconfigure (outp inp leng : Bool) (n : Len) :
    execConvword outp inp leng n (s.reconfigure cfg) = reconfigureOutcome cfg (execConvword outp inp leng n s) := by
  have hbound : wordBound cfg leng n = wordBound s.cfg leng n := by simp only [wordBound, hv.maxWordLen]
  simp only [execConvword, State.reconfigure_cfg, State.reconfigure_outBuf, State.reconfigure_overlap, hbound,
    scanWord_congr (State.reconfigure_inBuf s cfg) hv.convert]
  split
  · split
    · rfl
    · cases scanWord s (wordBound s.cfg leng n) 0 s.outBuf <;> rfl
  · rfl

theorem execConvnum_reconfigure (outp : Bool) (cap : Len) (val : Val) :
    execConvnum outp cap val (s.reconfigure cfg) = reconfigureOutcome cfg (execConvnum outp cap val s) := by
  simp only [execConvnum, State.reconfigure_outBuf, writeText_congr fun c _ => hv.convert c]
  split
  · rfl
  split
  · rfl
  split
  · rfl
  · cases writeText s (numText val) 0 s.outBuf <;> rfl

/-- Every operation has the same outcome under a configuration with the same view. -/
theorem exec_reconfigure (i : Instr) : exec i (s.reconfigure cfg) = reconfigureOutcome cfg (exec i s) := by
  cases i with
  | validate ch => exact execValidate_reconfigure hv ch
  | convchar outp ch => exact execConvchar_reconfigure hv outp ch
  | convword outp inp leng n => exact execConvword_reconfigure hv outp inp leng n
  | convnum outp cap val => exact execConvnum_reconfigure hv outp cap val

end

/-- Settles O15: both providers give GLYPH, so the two configurations look the same to every operation. -/
theorem strategyUnobservable : Obligations.StrategyUnobservable := by
  intro i s cfg hs hl hr hm hg
  have h := exec_reconfigure (sameView_of_same_glyph hs hl hr hm hg) i
  cases hx : exec i s <;> rw [hx] at h <;> exact h

/-! ## A step runs the decoded request -/

/-- The next state of a step that takes a request whose word decodes. -/
theorem nextState_request {s : State} {q : Req} {d : Interference} {i : Instr} {rest : List Event}
    (hp : s.pending = .request q d :: rest) (hrf : s.refused ≠ some .illegalConfig) (hq : decode q = .ok i) :
    nextState s = runRequest i d { s with pending := rest } := by
  rw [nextState_event hp, handleEvent_request]
  exact transact_ok hrf hq

/-- An undisturbed request ends as the outcome of `exec` says. -/
theorem runRequest_undisturbed (i : Instr) (s : State) :
    runRequest i .undisturbed s = conclude i .undisturbed s (exec i s) := rfl

/-- Settles O50: the step runs the decoded request, and `conclude` takes each of the three outcomes. -/
theorem stepRunsDecodedRequest : Obligations.StepRunsDecodedRequest := by
  intro s q i rest hp hrf hq
  rw [step_eq, nextState_request hp hrf hq, runRequest_undisturbed]
  cases exec i { s with pending := rest } <;> rfl

end Sys2Proof.Machine

/-! PROOFS. 10_state.md: no step clears a mark (rule R21). -/

namespace Sys2Proof.Machine

/-! ## Every answer is a response -/

theorem execConvchar_next {outp : Bool} {ch : Byte} {s t : State} (h : execConvchar outp ch s = .next t) :
    ∃ out w c, t = s.respond out w c := by
  unfold execConvchar at h
  split at h
  · split at h <;> cases h <;> exact ⟨_, _, _, rfl⟩
  · cases h
    exact ⟨_, _, _, rfl⟩

theorem execConvword_next {outp inp leng : Bool} {n : Len} {s t : State}
    (h : execConvword outp inp leng n s = .next t) : ∃ out w c, t = s.respond out w c := by
  unfold execConvword at h
  split at h
  · split at h
    · cases h
    · split at h <;> cases h
      exact ⟨_, _, _, rfl⟩
  · cases h
    exact ⟨_, _, _, rfl⟩

theorem execConvnum_next {outp : Bool} {cap : Len} {val : Val} {s t : State}
    (h : execConvnum outp cap val s = .next t) : ∃ out w c, t = s.respond out w c := by
  unfold execConvnum at h
  split at h
  · cases h
    exact ⟨_, _, _, rfl⟩
  split at h
  · cases h
    exact ⟨_, _, _, rfl⟩
  split at h
  · cases h
    exact ⟨_, _, _, rfl⟩
  · split at h <;> cases h
    exact ⟨_, _, _, rfl⟩

/-- An operation that answers ends with a response, and so changes nothing but OUT, the response and the class
(00_scope.md rule R12). -/
theorem exec_next {i : Instr} {s t : State} (h : exec i s = .next t) : ∃ out w c, t = s.respond out w c := by
  cases i with
  | validate ch =>
    cases h
    exact ⟨_, _, _, rfl⟩
  | convchar outp ch => exact execConvchar_next h
  | convword outp inp leng n => exact execConvword_next h
  | convnum outp cap val => exact execConvnum_next h

/-! ## The marks along a step -/

/-- Each mark that is set in `s` is set in `t` (10_state.md rule R21). -/
structure State.KeepsMarks (s t : State) : Prop where
  faulted : s.faulted.isSome = true → t.faulted.isSome = true
  refused : s.refused.isSome = true → t.refused.isSome = true

theorem State.KeepsMarks.trans {s t u : State} (hst : s.KeepsMarks t) (htu : t.KeepsMarks u) : s.KeepsMarks u :=
  ⟨htu.faulted ∘ hst.faulted, htu.refused ∘ hst.refused⟩

/-- A state with the same marks keeps them. -/
theorem State.KeepsMarks.of_eq {s t : State} (hf : t.faulted = s.faulted) (hr : t.refused = s.refused) :
    s.KeepsMarks t :=
  ⟨fun h => hf ▸ h, fun h => hr ▸ h⟩

theorem keepsMarks_takeFault (s : State) (f : Fault) (k : Nat) : s.KeepsMarks (s.takeFault f k) where
  faulted _ := by simp
  refused h := h

theorem keepsMarks_takeRefusal (s : State) (r : Refusal) : s.KeepsMarks (s.takeRefusal r) where
  faulted h := h
  refused _ := by simp

theorem keepsMarks_refuseSecond (d : Interference) (s : State) : s.KeepsMarks (refuseSecond d s) where
  faulted h := by rwa [refuseSecond_eq]
  refused h := by rcases refuseSecond_refused d s with hr | hr <;> simp [hr, h]

/-- Every end of a request keeps the marks: a refusal and a fault add to them, an abandoned transaction and a response leave
them as they are. -/
theorem keepsMarks_runRequest (i : Instr) (d : Interference) (s : State) : s.KeepsMarks (runRequest i d s) := by
  obtain ⟨-, heq⟩ | ⟨-, u, heq, hu⟩ := runRequest_cases i d s
  · exact heq ▸ keepsMarks_takeRefusal s _
  · rw [heq]
    refine State.KeepsMarks.trans ?_ (keepsMarks_refuseSecond d u)
    obtain ⟨r, -, rfl⟩ | ⟨-, -, rfl⟩ | ⟨f, -, -, rfl⟩ | ⟨t, ht, -, rfl⟩ := hu
    · exact keepsMarks_takeRefusal s r
    · exact .of_eq rfl rfl
    · exact keepsMarks_takeFault s f _
    · obtain ⟨out, w, c, rfl⟩ := exec_next ht
      exact .of_eq rfl rfl

theorem keepsMarks_transact (q : Req) (d : Interference) (s : State) : s.KeepsMarks (transact q d s) := by
  by_cases hs : s.refused = some .illegalConfig
  · exact transact_illegal hs ▸ keepsMarks_takeRefusal s _
  · cases hq : decode q with
    | error e =>
      cases e
      rw [transact_reserved hs hq]
      exact (keepsMarks_takeRefusal s _).trans (keepsMarks_refuseSecond d _)
    | ok i => exact transact_ok hs hq ▸ keepsMarks_runRequest i d s

theorem keepsMarks_handleEvent (e : Event) (s : State) : s.KeepsMarks (handleEvent e s) := by
  cases e with
  | bind xs ys o => exact .of_eq rfl rfl
  | request q d => exact keepsMarks_transact q d s
  | reset => exact .of_eq rfl rfl

theorem keepsMarks_nextState (s : State) : s.KeepsMarks (nextState s) := by
  cases hp : s.pending with
  | nil => exact .of_eq (by rw [nextState_idle hp]) (by rw [nextState_idle hp])
  | cons e rest =>
    rw [nextState_event hp]
    have htaken : s.KeepsMarks { s with pending := rest } := .of_eq rfl rfl
    exact htaken.trans (keepsMarks_handleEvent e _)

/-- Settles O57: a step takes one action of the outside, and each action keeps the marks. -/
theorem marksNeverCleared : Obligations.MarksNeverCleared := by
  refine ⟨⟨State.fresh_faulted resetCfg, State.fresh_refused resetCfg⟩, fun s t h => ?_⟩
  cases h
  have hkeep := keepsMarks_nextState s
  exact ⟨hkeep.faulted, hkeep.refused⟩

end Sys2Proof.Machine

/-! PROOFS. 20_memory.md: what a transaction reads of IN and of OUT, what it writes, and when an access to a buffer faults. -/

namespace Sys2Proof.Machine

/-! ## The characters CONVNUM converts -/

/-- The digit count is one of 1 to 19 (43_number.md rule R82). -/
theorem digitCount_mem (m : Nat) : digitCount m ∈ List.range' 1 19 := by
  unfold digitCount
  cases hf : (List.range' 1 19).find? fun d => decide (m < pow10 d) with
  | none => decide
  | some d => exact List.mem_of_find?_eq_some hf

theorem requiredLen_pos (v : Val) : 0 < requiredLen v := by
  have hd := List.mem_range'_1.1 (digitCount_mem (magnitude v).toNat)
  unfold requiredLen
  omega

/-- No operand needs more than 20 slots (43_number.md rule R83). -/
theorem requiredLen_le (v : Val) : requiredLen v ≤ 20 := by
  have hd := List.mem_range'_1.1 (digitCount_mem (magnitude v).toNat)
  unfold requiredLen
  split <;> omega

/-- The required length is that of the text. -/
@[simp] theorem numText_length (v : Val) : (numText v).length = requiredLen v := by
  cases h : isNeg v <;> simp [numText, digitText, requiredLen, h, Nat.add_comm]

/-- The sign and the digits are in every range (40_table_provider.md rule R57). -/
theorem inRange_of_mem_numText {v : Val} {c : Byte} (h : c ∈ numText v) (r : Range) : inRange r c = true := by
  rw [numText, List.mem_append] at h
  rcases h with hsign | hdigit
  · split at hsign
    · rw [List.mem_singleton.1 hsign]
      exact inRange_minusChar r
    · cases hsign
  · obtain ⟨j, -, rfl⟩ := List.mem_map.1 hdigit
    exact inRange_digitChar r (Nat.mod_lt _ (by decide))

/-! ## Conversions of a sound state -/

section

variable {s : State} (hs : s.Sound)
include hs

/-- A sound state has the slot value of every character in range. -/
theorem State.Sound.provide_eq {c : Byte} (hc : inRange s.cfg.range c = true) :
    provide s.cfg s.rom c = some (glyphOf s.cfg c) := by
  rw [hs.romEq]
  exact provide_inRange hs.legal hc

/-- A conversion into a slot that does not exist is an access past OUT, whatever the character. -/
theorem State.Sound.convertInto_missing {c : Byte} {i : Nat} {out : Memory} (ho : out.read i = none) :
    convertInto s c i out = .error .outOfBuffer := by
  cases hc : inRange s.cfg.range c with
  | false => simp [convertInto, hc, (Memory.write_eq_none_iff _ _ _).2 ho]
  | true => simp [convertInto, hc, hs.provide_eq hc, (Memory.write_eq_none_iff _ _ _).2 ho]

/-- A conversion into a slot that exists is done, whatever the character. -/
theorem State.Sound.convertInto_exists {c : Byte} {i : Nat} {out : Memory} (ho : (out.read i).isSome = true) :
    ∃ out' b, convertInto s c i out = .ok (out', b) := by
  cases hc : inRange s.cfg.range c with
  | false =>
    obtain ⟨out', -, h⟩ := convertInto_unsupported hc ho
    exact ⟨out', false, h⟩
  | true =>
    obtain ⟨out', -, h⟩ := convertInto_supported hc (hs.provide_eq hc) ho
    exact ⟨out', true, h⟩

/-- CONVNUM's text is convertible in every sound state. -/
theorem State.Sound.numText_supported (v : Val) :
    ∀ c ∈ numText v, inRange s.cfg.range c = true ∧ (provide s.cfg s.rom c).isSome = true := by
  intro c hc
  have hr := inRange_of_mem_numText hc s.cfg.range
  exact ⟨hr, by simp [hs.provide_eq hr]⟩

/-- A scan whose buffers are long enough ends. -/
theorem State.Sound.scanWord_covered {k i : Nat} {out : Memory} (hin : s.inBuf.Covers (i + k))
    (hout : out.Covers (i + k)) : ∃ e, scanWord s k i out = .ok e := by
  induction k generalizing i out with
  | zero => exact ⟨_, rfl⟩
  | succ k ih =>
    obtain ⟨c, hc⟩ := Option.isSome_iff_exists.1 (hin i (by omega))
    obtain ⟨out', b, hcv⟩ := hs.convertInto_exists (c := c) (hout i (by omega))
    by_cases hn : c = nulChar
    · exact ⟨⟨out, i, .terminator⟩, by simp [scanWord, hc, hn]⟩
    · cases b with
      | false => exact ⟨⟨out', i, .unsupported⟩, by simp [scanWord, hc, hn, hcv]⟩
      | true =>
        obtain ⟨v, hw, -⟩ := convertInto_ok hcv
        have hnext : i + 1 + k = i + (k + 1) := by omega
        have hout' : out'.Covers (i + 1 + k) := fun j hj => by
          rw [Memory.isSome_of_indices (Memory.write_indices hw)]
          exact hout j (by omega)
        obtain ⟨e, he⟩ := ih (hnext ▸ hin) hout'
        exact ⟨e, by simp [scanWord, hc, hn, hcv, he]⟩

end

/-! ## The outcome of each operation, by what its conversions answer -/

/-- The class CONVCHAR records with its output present, by whether the character is supported (60_exceptions.md rule R89). -/
def convcharClass (supported : Bool) : FailureClass :=
  if supported then .noFailure else .unsupportedCharacter

theorem execConvchar_ok {ch : Byte} {s : State} {out : Memory} {b : Bool}
    (h : convertInto s ch 0 s.outBuf = .ok (out, b)) :
    execConvchar true ch s = .next (s.respond out (rspOk b) (convcharClass b)) := by
  cases b <;> simp [execConvchar, h, convcharClass]

theorem execConvchar_fault {ch : Byte} {s : State} {f : Fault} (h : convertInto s ch 0 s.outBuf = .error f) :
    execConvchar true ch s = .fault f := by
  simp [execConvchar, h]

/-- CONVWORD without both buffers writes nothing (42_word.md rule R77). -/
theorem execConvword_absent {outp inp : Bool} (h : (inp && outp) = false) (leng : Bool) (n : Len) (s : State) :
    execConvword outp inp leng n s = .next (s.respond s.outBuf (rspCount 0) .invalidArgument) := by
  simp [execConvword, h]

theorem execConvword_overlap {s : State} (h : s.overlap = true) (leng : Bool) (n : Len) :
    execConvword true true leng n s = .refused .bufferOverlap := by
  simp [execConvword, h]

section

variable {leng : Bool} {n : Len} {s : State}

theorem execConvword_ok {e : ScanEnd} (ho : s.overlap = false)
    (h : scanWord s (wordBound s.cfg leng n) 0 s.outBuf = .ok e) :
    execConvword true true leng n s =
      .next (s.respond e.out (rspCount e.count) (scanClass (wordBound s.cfg leng n) e.stop)) := by
  simp [execConvword, ho, h]

theorem execConvword_fault {f : Fault} (ho : s.overlap = false)
    (h : scanWord s (wordBound s.cfg leng n) 0 s.outBuf = .error f) :
    execConvword true true leng n s = .fault f := by
  simp [execConvword, ho, h]

end

/-- CONVNUM without an output or with a capacity too small writes nothing, and its response is the same in every state
(43_number.md rule R87). -/
theorem execConvnum_rejected {outp : Bool} {cap : Len} {v : Val} (h : outp = false ∨ cap.toNat < requiredLen v) :
    ∃ c, ∀ s, execConvnum outp cap v s = .next (s.respond s.outBuf (rspOk false) c) := by
  cases outp with
  | false => exact ⟨.invalidArgument, fun _ => rfl⟩
  | true =>
    by_cases hz : cap = 0#16
    · exact ⟨.invalidArgument, fun s => by simp [execConvnum, hz]⟩
    · have hlt : cap.toNat < requiredLen v := by simpa using h
      exact ⟨.bufferTooSmall, fun s => by simp [execConvnum, hz, hlt]⟩

/-- With an output and a sufficient capacity CONVNUM passes the three failure tests (43_number.md rule R87). -/
theorem convnum_tests_passed {cap : Len} {v : Val} (h : requiredLen v ≤ cap.toNat) :
    cap ≠ 0#16 ∧ ¬ cap.toNat < requiredLen v := by
  refine ⟨?_, by omega⟩
  rintro rfl
  have := requiredLen_pos v
  simp only [BitVec.toNat_ofNat] at h
  omega

section

variable {cap : Len} {v : Val} {s : State}

theorem execConvnum_ok {out : Memory} (hcap : requiredLen v ≤ cap.toNat)
    (h : writeText s (numText v) 0 s.outBuf = .ok out) :
    execConvnum true cap v s = .next (s.respond out (rspOk true) .noFailure) := by
  simp [execConvnum, convnum_tests_passed hcap, h]

theorem execConvnum_fault {f : Fault} (hcap : requiredLen v ≤ cap.toNat)
    (h : writeText s (numText v) 0 s.outBuf = .error f) : execConvnum true cap v s = .fault f := by
  simp [execConvnum, convnum_tests_passed hcap, h]

end

/-- CONVNUM is rejected by its tests, or passes them. -/
theorem convnum_tests (outp : Bool) (cap : Len) (v : Val) :
    (outp = false ∨ cap.toNat < requiredLen v) ∨ outp = true ∧ requiredLen v ≤ cap.toNat := by
  cases outp <;> simp [Nat.lt_or_ge]

/-! ## What an operation that answers has done -/

/-- A CONVCHAR that answers has no output, or has converted its character. -/
theorem execConvchar_next_cases {outp : Bool} {ch : Byte} {s t : State} (h : execConvchar outp ch s = .next t) :
    (outp = false ∧ t = s.respond s.outBuf (rspOk false) .invalidArgument) ∨
    (outp = true ∧ ∃ out b, convertInto s ch 0 s.outBuf = .ok (out, b) ∧
      t = s.respond out (rspOk b) (convcharClass b)) := by
  cases outp with
  | false =>
    cases h
    exact .inl ⟨rfl, rfl⟩
  | true =>
    cases hc : convertInto s ch 0 s.outBuf with
    | error f =>
      rw [execConvchar_fault hc] at h
      cases h
    | ok p =>
      rw [execConvchar_ok hc] at h
      cases h
      exact .inr ⟨rfl, _, _, rfl, rfl⟩

/-- A CONVWORD that answers lacks a buffer, or its buffers are apart and its scan has ended. -/
theorem execConvword_next_cases {outp inp leng : Bool} {n : Len} {s t : State}
    (h : execConvword outp inp leng n s = .next t) :
    ((inp && outp) = false ∧ t = s.respond s.outBuf (rspCount 0) .invalidArgument) ∨
    (inp = true ∧ outp = true ∧ s.overlap = false ∧ ∃ e, scanWord s (wordBound s.cfg leng n) 0 s.outBuf = .ok e ∧
      t = s.respond e.out (rspCount e.count) (scanClass (wordBound s.cfg leng n) e.stop)) := by
  cases hp : inp && outp with
  | false =>
    rw [execConvword_absent hp] at h
    cases h
    exact .inl ⟨rfl, rfl⟩
  | true =>
    obtain ⟨rfl, rfl⟩ := Bool.and_eq_true_iff.1 hp
    cases ho : s.overlap with
    | true =>
      rw [execConvword_overlap ho] at h
      cases h
    | false =>
      cases he : scanWord s (wordBound s.cfg leng n) 0 s.outBuf with
      | error f =>
        rw [execConvword_fault ho he] at h
        cases h
      | ok e =>
        rw [execConvword_ok ho he] at h
        cases h
        exact .inr ⟨rfl, rfl, rfl, e, rfl, rfl⟩

/-- A CONVNUM that answers was rejected by its tests, as it would be in every state, or has written its text. -/
theorem execConvnum_next_cases {outp : Bool} {cap : Len} {v : Val} {s t : State}
    (h : execConvnum outp cap v s = .next t) :
    (∃ c, (∀ s, execConvnum outp cap v s = .next (s.respond s.outBuf (rspOk false) c)) ∧
      t = s.respond s.outBuf (rspOk false) c) ∨
    (outp = true ∧ requiredLen v ≤ cap.toNat ∧ ∃ out, writeText s (numText v) 0 s.outBuf = .ok out ∧
      t = s.respond out (rspOk true) .noFailure) := by
  rcases convnum_tests outp cap v with hrej | ⟨rfl, hcap⟩
  · obtain ⟨c, hc⟩ := execConvnum_rejected hrej
    rw [hc] at h
    cases h
    exact .inl ⟨c, hc, rfl⟩
  · cases hw : writeText s (numText v) 0 s.outBuf with
    | error f =>
      rw [execConvnum_fault hcap hw] at h
      cases h
    | ok out =>
      rw [execConvnum_ok hcap hw] at h
      cases h
      exact .inr ⟨rfl, hcap, out, rfl, rfl⟩

/-! ## The frame of a transaction -/

/-- `m'` has the indices of `m` and differs from it at most below `k` (20_memory.md rule R30, the OUT column). -/
structure Memory.ChangedBelow (k : Nat) (m m' : Memory) : Prop where
  indices : m'.map Prod.fst = m.map Prod.fst
  above   : ∀ a, k ≤ a → m'.read a = m.read a

theorem Memory.ChangedBelow.refl (k : Nat) (m : Memory) : m.ChangedBelow k m := ⟨rfl, fun _ _ => rfl⟩

theorem convertInto_changedBelow {s : State} {c : Byte} {i : Nat} {out out' : Memory} {b : Bool}
    (h : convertInto s c i out = .ok (out', b)) : out.ChangedBelow (i + 1) out' := by
  obtain ⟨v, hw, -⟩ := convertInto_ok h
  exact ⟨Memory.write_indices hw, fun a ha => Memory.read_write_other hw (by omega)⟩

/-- A scan writes below its bound only: at the bound itself it stops before it writes. -/
theorem scanWord_changedBelow {s : State} {k i : Nat} {out : Memory} {e : ScanEnd}
    (h : scanWord s k i out = .ok e) : out.ChangedBelow (i + k) e.out := by
  obtain ⟨-, hle, hind, -, -, hafter, hstop⟩ := scanWord_ok h
  refine ⟨hind, fun a ha => ?_⟩
  by_cases hlt : e.count < a
  · exact hafter a hlt
  · obtain rfl : a = e.count := by omega
    cases hs : e.stop <;> rw [hs] at hstop
    · exact hstop.2
    · exact hstop.2.2
    · exact absurd hstop.1 (by omega)

theorem writeText_changedBelow {s : State} {text : List Byte} {i : Nat} {out out' : Memory}
    (h : writeText s text i out = .ok out') : out.ChangedBelow (i + text.length) out' := by
  obtain ⟨hind, -, hother⟩ := writeText_ok h
  exact ⟨hind, fun a ha => hother a (.inr ha)⟩

theorem Memory.ChangedBelow.mono {k k' : Nat} {m m' : Memory} (h : m.ChangedBelow k m') (hk : k ≤ k') :
    m.ChangedBelow k' m' :=
  ⟨h.indices, fun a ha => h.above a (hk.trans ha)⟩

/-- An operation that answers has written below its footprint only (70_reset_and_hazards.md rule R110). -/
theorem exec_changedBelow {i : Instr} {s t : State} (h : exec i s = .next t) :
    s.outBuf.ChangedBelow (footprint s.cfg i) t.outBuf := by
  cases i with
  | validate ch =>
    cases h
    exact .refl _ _
  | convchar outp ch =>
    obtain ⟨-, rfl⟩ | ⟨rfl, out, b, hc, rfl⟩ := execConvchar_next_cases h
    · exact .refl _ _
    · exact convertInto_changedBelow hc
  | convword outp inp leng n =>
    obtain ⟨-, rfl⟩ | ⟨rfl, rfl, -, e, he, rfl⟩ := execConvword_next_cases h
    · exact .refl _ _
    · exact (scanWord_changedBelow he).mono (by simp [footprint])
  | convnum outp cap v =>
    obtain ⟨c, -, rfl⟩ | ⟨rfl, hcap, out, hw, rfl⟩ := execConvnum_next_cases h
    · exact .refl _ _
    · exact (writeText_changedBelow hw).mono (by simp [footprint, hcap, requiredLen_le])

/-- Settles O44: an answer is a response, and OUT is changed below the footprint only. -/
theorem transactionFrame : Obligations.TransactionFrame := by
  intro i s t h
  have hout := exec_changedBelow h
  obtain ⟨out, w, c, rfl⟩ := exec_next h
  exact ⟨⟨rfl, hout.indices⟩, hout.above⟩

/-! ## What a step keeps -/

/-- Whatever holds of the state after a refusal, an abandoned transaction, a fault and an answer, and is not lost with the
refusal mark, holds after a transaction (60_exceptions.md rules R91 and R93, 70_reset_and_hazards.md rules R110 and R113). -/
theorem transact_induction {P : State → Prop} {s : State} (refusal : ∀ r, P (s.takeRefusal r))
    (abandoned : ∀ k, P (s.abandon k)) (fault : ∀ f k, P (s.takeFault f k))
    (answer : ∀ i t, exec i s = .next t → P t) (marked : ∀ u r, P u → P (u.markRefused r))
    (q : Req) (d : Interference) : P (transact q d s) := by
  have second : ∀ u, P u → P (refuseSecond d u) := by
    intro u hu
    cases d with
    | secondRequest => exact marked u _ hu
    | undisturbed => exact hu
    | resetArrives => exact hu
    | agentAccess => exact hu
  by_cases hs : s.refused = some .illegalConfig
  · exact transact_illegal hs ▸ refusal _
  · cases hq : decode q with
    | error e =>
      cases e
      exact transact_reserved hs hq ▸ second _ (refusal _)
    | ok i =>
      rw [transact_ok hs hq]
      obtain ⟨-, heq⟩ | ⟨-, u, heq, hu⟩ := runRequest_cases i d s
      · exact heq ▸ refusal _
      · rw [heq]
        apply second
        obtain ⟨r, -, rfl⟩ | ⟨-, -, rfl⟩ | ⟨f, -, -, rfl⟩ | ⟨t, ht, -, rfl⟩ := hu
        · exact refusal r
        · exact abandoned _
        · exact fault f _
        · exact answer i _ ht

/-- The same configuration, ROM and IN, the same overlap, and the same slots in OUT, whatever they hold. -/
structure State.KeepsBinding (s t : State) : Prop where
  cfg        : t.cfg = s.cfg
  rom        : t.rom = s.rom
  inBuf      : t.inBuf = s.inBuf
  overlap    : t.overlap = s.overlap
  outIndices : t.outBuf.map Prod.fst = s.outBuf.map Prod.fst

theorem keepsBinding_of_answer {i : Instr} {s t : State} (h : exec i s = .next t) : s.KeepsBinding t := by
  have hout := exec_changedBelow h
  obtain ⟨out, w, c, rfl⟩ := exec_next h
  exact ⟨rfl, rfl, rfl, rfl, hout.indices⟩

/-- No transaction changes what the caller has bound, however it ends. -/
theorem keepsBinding_transact (q : Req) (d : Interference) (s : State) : s.KeepsBinding (transact q d s) :=
  transact_induction (P := s.KeepsBinding)
    (refusal := fun _ => ⟨rfl, rfl, rfl, rfl, rfl⟩)
    (abandoned := fun _ => ⟨rfl, rfl, rfl, rfl, Memory.havoc_indices _ _ _⟩)
    (fault := fun _ _ => ⟨rfl, rfl, rfl, rfl, Memory.havoc_indices _ _ _⟩)
    (answer := fun _ _ h => keepsBinding_of_answer h)
    (marked := fun _ _ h => ⟨h.cfg, h.rom, h.inBuf, h.overlap, h.outIndices⟩) q d

/-- Every action of the outside but a binding keeps what the caller has bound. -/
theorem keepsBinding_handleEvent {e : Event} (he : ∀ xs ys o, e ≠ .bind xs ys o) (s : State) :
    s.KeepsBinding (handleEvent e s) := by
  cases e with
  | bind xs ys o => exact absurd rfl (he xs ys o)
  | request q d => exact keepsBinding_transact q d s
  | reset => exact ⟨rfl, rfl, rfl, rfl, rfl⟩

theorem keepsBinding_nextState {s : State} (h : ∀ xs ys o rest, s.pending ≠ .bind xs ys o :: rest) :
    s.KeepsBinding (nextState s) := by
  cases hp : s.pending with
  | nil =>
    rw [nextState_idle hp]
    exact ⟨rfl, rfl, rfl, rfl, rfl⟩
  | cons e rest =>
    rw [nextState_event hp]
    have hkeep := keepsBinding_handleEvent (e := e) (fun xs ys o he => h xs ys o rest (he ▸ hp))
      { s with pending := rest }
    exact ⟨hkeep.cfg, hkeep.rom, hkeep.inBuf, hkeep.overlap, hkeep.outIndices⟩

/-- Settles O58: a binding leaves the configuration and the ROM, every other action keeps what was bound. -/
theorem configurationRomAndInputConstant : Obligations.ConfigurationRomAndInputConstant := by
  intro s t h
  cases h
  by_cases hb : ∃ xs ys o rest, s.pending = .bind xs ys o :: rest
  · obtain ⟨xs, ys, o, rest, hp⟩ := hb
    rw [nextState_event hp]
    exact ⟨rfl, rfl, fun hno => absurd hp (hno xs ys o rest)⟩
  · have hkeep := keepsBinding_nextState fun xs ys o rest hp => hb ⟨xs, ys, o, rest, hp⟩
    exact ⟨hkeep.cfg, hkeep.rom, fun _ => ⟨hkeep.inBuf, hkeep.overlap, hkeep.outIndices⟩⟩

/-! ## OUT is never read -/

/-- Two buffers, begun as `m₀` and `n₀`, after the same writes to both: the same indices, and a slot is untouched in both or
holds one value in both. -/
structure Memory.WrittenAlike (m₀ n₀ m n : Memory) : Prop where
  indices : n.map Prod.fst = m.map Prod.fst
  slots   : ∀ a, m.read a = m₀.read a ∧ n.read a = n₀.read a ∨ n.read a = m.read a

section

variable {m₀ n₀ m n : Memory}

/-- One more write to both: it fails in both or is done in both. -/
theorem Memory.WrittenAlike.after_write (h : Memory.WrittenAlike m₀ n₀ m n) (i : Nat) (v : Byte) :
    (m.write i v = none ∧ n.write i v = none) ∨
    ∃ m' n', m.write i v = some m' ∧ n.write i v = some n' ∧ Memory.WrittenAlike m₀ n₀ m' n' := by
  have hsome : (n.write i v).isSome = (m.write i v).isSome := by
    rw [Bool.eq_iff_iff, Memory.write_isSome_iff, Memory.write_isSome_iff, Memory.isSome_of_indices h.indices]
  cases hm : m.write i v with
  | none => exact .inl ⟨rfl, by simpa [hm] using hsome⟩
  | some m' =>
    obtain ⟨n', hn⟩ := Option.isSome_iff_exists.1 (hsome.trans (by simp [hm]))
    refine .inr ⟨m', n', rfl, hn, ?_, fun a => ?_⟩
    · rw [Memory.write_indices hn, Memory.write_indices hm, h.indices]
    · by_cases ha : a = i
      · subst ha
        exact .inr (by rw [Memory.read_write_same hn, Memory.read_write_same hm])
      · rw [Memory.read_write_other hn ha, Memory.read_write_other hm ha]
        exact h.slots a

/-- The same conversion into both buffers ends alike. -/
theorem Memory.WrittenAlike.after_convertInto (h : Memory.WrittenAlike m₀ n₀ m n) (s : State) (c : Byte) (i : Nat) :
    (∃ f, convertInto s c i m = .error f ∧ convertInto s c i n = .error f) ∨
    ∃ m' n' b, convertInto s c i m = .ok (m', b) ∧ convertInto s c i n = .ok (n', b) ∧
      Memory.WrittenAlike m₀ n₀ m' n' := by
  unfold convertInto
  cases inRange s.cfg.range c with
  | false =>
    obtain ⟨hm, hn⟩ | ⟨m', n', hm, hn, h'⟩ := h.after_write i allOff
    · exact .inl ⟨.outOfBuffer, by simp [hm], by simp [hn]⟩
    · exact .inr ⟨m', n', false, by simp [hm], by simp [hn], h'⟩
  | true =>
    cases provide s.cfg s.rom c with
    | none => exact .inl ⟨.internalInvariant, rfl, rfl⟩
    | some g =>
      obtain ⟨hm, hn⟩ | ⟨m', n', hm, hn, h'⟩ := h.after_write i g
      · exact .inl ⟨.outOfBuffer, by simp [hm], by simp [hn]⟩
      · exact .inr ⟨m', n', true, by simp [hm], by simp [hn], h'⟩

/-- The same scan into both buffers ends alike: the same fault, or the same index for the same cause. -/
theorem Memory.WrittenAlike.after_scanWord (h : Memory.WrittenAlike m₀ n₀ m n) (s : State) (k i : Nat) :
    (∃ f, scanWord s k i m = .error f ∧ scanWord s k i n = .error f) ∨
    ∃ m' n' j stop, scanWord s k i m = .ok ⟨m', j, stop⟩ ∧ scanWord s k i n = .ok ⟨n', j, stop⟩ ∧
      Memory.WrittenAlike m₀ n₀ m' n' := by
  induction k generalizing i m n with
  | zero => exact .inr ⟨m, n, i, .bound, rfl, rfl, h⟩
  | succ k ih =>
    simp only [scanWord]
    cases s.inBuf.read i with
    | none => exact .inl ⟨.outOfBuffer, rfl, rfl⟩
    | some c =>
      by_cases hc : c = nulChar
      · exact .inr ⟨m, n, i, .terminator, by simp [hc], by simp [hc], h⟩
      · simp only [if_neg hc]
        obtain ⟨f, hm, hn⟩ | ⟨m', n', b, hm, hn, h'⟩ := h.after_convertInto s c i <;> rw [hm, hn]
        · exact .inl ⟨f, rfl, rfl⟩
        · cases b with
          | false => exact .inr ⟨m', n', i, .unsupported, rfl, rfl, h'⟩
          | true => exact ih h' (i + 1)

/-- The same text into both buffers ends alike. -/
theorem Memory.WrittenAlike.after_writeText (h : Memory.WrittenAlike m₀ n₀ m n) (s : State) (text : List Byte) (i : Nat) :
    (∃ f, writeText s text i m = .error f ∧ writeText s text i n = .error f) ∨
    ∃ m' n', writeText s text i m = .ok m' ∧ writeText s text i n = .ok n' ∧ Memory.WrittenAlike m₀ n₀ m' n' := by
  induction text generalizing i m n with
  | nil => exact .inr ⟨m, n, rfl, rfl, h⟩
  | cons c text ih =>
    simp only [writeText]
    obtain ⟨f, hm, hn⟩ | ⟨m', n', b, hm, hn, h'⟩ := h.after_convertInto s c i <;> rw [hm, hn]
    · exact .inl ⟨f, rfl, rfl⟩
    · cases b with
      | false => exact .inl ⟨.internalInvariant, rfl, rfl⟩
      | true => exact ih h' (i + 1)

end

/-- Outcomes of two runs on the buffers `m₀` and `n₀` that nobody can tell apart but by slots that neither run wrote. -/
inductive AlikeOutcomes (m₀ n₀ : Memory) :
    Host.Outcome State Fault Refusal → Host.Outcome State Fault Refusal → Prop where
  | next {t u : State} (rsp : u.rsp = t.rsp) (cls : u.cls = t.cls)
      (out : Memory.WrittenAlike m₀ n₀ t.outBuf u.outBuf) : AlikeOutcomes m₀ n₀ (.next t) (.next u)
  | fault (f : Fault) : AlikeOutcomes m₀ n₀ (.fault f) (.fault f)
  | refused (r : Refusal) : AlikeOutcomes m₀ n₀ (.refused r) (.refused r)

/-- The state with another OUT. -/
def State.withOut (s : State) (m : Memory) : State := { s with outBuf := m }

@[simp] theorem State.withOut_cfg (s : State) (m : Memory) : (s.withOut m).cfg = s.cfg := rfl
@[simp] theorem State.withOut_outBuf (s : State) (m : Memory) : (s.withOut m).outBuf = m := rfl

/-- No conversion reads the OUT of its state: it is given the buffer to write. -/
@[simp] theorem convertInto_withOut (s : State) (o : Memory) (c : Byte) (i : Nat) (out : Memory) :
    convertInto (s.withOut o) c i out = convertInto s c i out := rfl

@[simp] theorem scanWord_withOut (s : State) (o : Memory) (k i : Nat) (out : Memory) :
    scanWord (s.withOut o) k i out = scanWord s k i out :=
  scanWord_congr (s := s.withOut o) (t := s) rfl (convertInto_withOut s o) k i out

@[simp] theorem writeText_withOut (s : State) (o : Memory) (text : List Byte) (i : Nat) (out : Memory) :
    writeText (s.withOut o) text i out = writeText s text i out :=
  writeText_congr (fun c _ => convertInto_withOut s o c) i out

section

variable {s : State} {o : Memory} (h : o.map Prod.fst = s.outBuf.map Prod.fst)
include h

/-- Before anything is written the two buffers are alike. -/
theorem writtenAlike_begin : Memory.WrittenAlike s.outBuf o s.outBuf o := ⟨h, fun _ => .inl ⟨rfl, rfl⟩⟩

theorem execConvchar_alike (outp : Bool) (ch : Byte) :
    AlikeOutcomes s.outBuf o (execConvchar outp ch s) (execConvchar outp ch (s.withOut o)) := by
  cases outp with
  | false => exact .next rfl rfl (writtenAlike_begin h)
  | true =>
    obtain ⟨f, hm, hn⟩ | ⟨m', n', b, hm, hn, h'⟩ := (writtenAlike_begin h).after_convertInto s ch 0
    · rw [execConvchar_fault hm, execConvchar_fault (s := s.withOut o) hn]
      exact .fault f
    · rw [execConvchar_ok hm, execConvchar_ok (s := s.withOut o) hn]
      exact .next rfl rfl h'

theorem execConvword_alike (outp inp leng : Bool) (n : Len) :
    AlikeOutcomes s.outBuf o (execConvword outp inp leng n s) (execConvword outp inp leng n (s.withOut o)) := by
  cases hp : inp && outp with
  | false =>
    rw [execConvword_absent hp, execConvword_absent hp]
    exact .next rfl rfl (writtenAlike_begin h)
  | true =>
    obtain ⟨rfl, rfl⟩ := Bool.and_eq_true_iff.1 hp
    cases ho : s.overlap with
    | true =>
      rw [execConvword_overlap ho, execConvword_overlap (s := s.withOut o) ho]
      exact .refused _
    | false =>
      obtain ⟨f, hm, hn⟩ | ⟨m', n', j, stop, hm, hn, h'⟩ :=
        (writtenAlike_begin h).after_scanWord s (wordBound s.cfg leng n) 0
      · rw [execConvword_fault ho hm, execConvword_fault (s := s.withOut o) ho (by simpa using hn)]
        exact .fault f
      · rw [execConvword_ok ho hm, execConvword_ok (s := s.withOut o) ho (by simpa using hn)]
        exact .next rfl rfl h'

theorem execConvnum_alike (outp : Bool) (cap : Len) (v : Val) :
    AlikeOutcomes s.outBuf o (execConvnum outp cap v s) (execConvnum outp cap v (s.withOut o)) := by
  rcases convnum_tests outp cap v with hrej | ⟨rfl, hcap⟩
  · obtain ⟨c, hc⟩ := execConvnum_rejected hrej
    rw [hc, hc]
    exact .next rfl rfl (writtenAlike_begin h)
  · obtain ⟨f, hm, hn⟩ | ⟨m', n', hm, hn, h'⟩ := (writtenAlike_begin h).after_writeText s (numText v) 0
    · rw [execConvnum_fault hcap hm, execConvnum_fault (s := s.withOut o) hcap (by simpa using hn)]
      exact .fault f
    · rw [execConvnum_ok hcap hm, execConvnum_ok (s := s.withOut o) hcap (by simpa using hn)]
      exact .next rfl rfl h'

/-- Every operation ends alike on two OUT buffers with the same slots. -/
theorem exec_alike (i : Instr) : AlikeOutcomes s.outBuf o (exec i s) (exec i (s.withOut o)) := by
  cases i with
  | validate ch => exact .next rfl rfl (writtenAlike_begin h)
  | convchar outp ch => exact execConvchar_alike h outp ch
  | convword outp inp leng n => exact execConvword_alike h outp inp leng n
  | convnum outp cap v => exact execConvnum_alike h outp cap v

end

/-- Settles O47: the two runs make the same writes, so they end alike. -/
theorem outputNeverRead : Obligations.OutputNeverRead := by
  intro i s m hm
  have halike := exec_alike hm i
  change AlikeOutcomes s.outBuf m (exec i s) (exec i { s with outBuf := m }) at halike
  generalize exec i s = o, exec i { s with outBuf := m } = o' at halike
  cases halike with
  | next hrsp hcls hout => exact ⟨hrsp, hcls, hout.slots⟩
  | fault f => rfl
  | refused r => rfl

/-! ## What is read of IN -/

/-- The state with another IN. -/
def State.withIn (s : State) (m : Memory) : State := { s with inBuf := m }

@[simp] theorem State.withIn_inBuf (s : State) (m : Memory) : (s.withIn m).inBuf = m := rfl
@[simp] theorem State.withIn_outBuf (s : State) (m : Memory) : (s.withIn m).outBuf = s.outBuf := rfl

/-- No conversion reads IN: it is given its character. -/
@[simp] theorem convertInto_withIn (s : State) (m : Memory) (c : Byte) (i : Nat) (out : Memory) :
    convertInto (s.withIn m) c i out = convertInto s c i out := rfl

@[simp] theorem writeText_withIn (s : State) (m : Memory) (text : List Byte) (i : Nat) (out : Memory) :
    writeText (s.withIn m) text i out = writeText s text i out :=
  writeText_congr (fun c _ => convertInto_withIn s m c) i out

/-- A scan that ends reads IN from its first index to the one it reaches, and never at the bound
(42_word.md rule R77; 20_memory.md rule R30). -/
theorem scanWord_withIn {s : State} {m : Memory} {k i : Nat} {out : Memory} {e : ScanEnd}
    (h : scanWord s k i out = .ok e)
    (hm : ∀ j, i ≤ j → j ≤ e.count → j < i + k → m.read j = s.inBuf.read j) :
    scanWord (s.withIn m) k i out = .ok e := by
  induction k generalizing i out with
  | zero => exact h
  | succ k ih =>
    have hi : m.read i = s.inBuf.read i := hm i (Nat.le_refl i) (scanWord_ok h).1 (by omega)
    simp only [scanWord, State.withIn_inBuf, convertInto_withIn, hi] at h ⊢
    cases hc : s.inBuf.read i with
    | none => simp [hc] at h
    | some c =>
      simp only [hc] at h ⊢
      by_cases hn : c = nulChar
      · rwa [if_pos hn] at h ⊢
      · rw [if_neg hn] at h ⊢
        cases hcv : convertInto s c i out with
        | error f => simp [hcv] at h
        | ok p =>
          obtain ⟨out', b⟩ := p
          cases b with
          | false => simpa [hcv] using h
          | true =>
            simp only [hcv] at h ⊢
            exact ih h fun j hij hje hjk => hm j (by omega) hje (by omega)

/-- A bound fits in the 16 bits of COUNT (30_encoding.md rules R47 and R53). -/
theorem wordBound_lt (cfg : Cfg) (leng : Bool) (n : Len) : wordBound cfg leng n < 2 ^ 16 := by
  unfold wordBound
  split <;> exact BitVec.isLt _

/-- COUNT of the response to a scan is the index the scan reached: no bound is too large for the field. -/
theorem countOf_scan {s : State} {leng : Bool} {n : Len} {e : ScanEnd} {out : Memory}
    (h : scanWord s (wordBound s.cfg leng n) 0 out = .ok e) : (countOf (rspCount e.count)).toNat = e.count := by
  obtain ⟨-, hle, -⟩ := scanWord_ok h
  have hlt := wordBound_lt s.cfg leng n
  rw [countOf_rspCount, BitVec.toNat_ofNat, Nat.mod_eq_of_lt (by omega)]

/-- A CONVWORD that answers does so for every IN that agrees with the bytes it has read. -/
theorem execConvword_withIn {s t : State} {m : Memory} {outp inp leng : Bool} {n : Len} {w : Rsp}
    (h : execConvword outp inp leng n s = .next t) (hw : t.rsp = some w)
    (hm : ∀ j, j ≤ (countOf w).toNat → j < wordBound s.cfg leng n → m.read j = s.inBuf.read j) :
    execConvword outp inp leng n (s.withIn m) = .next (t.withIn m) := by
  obtain ⟨hp, rfl⟩ | ⟨rfl, rfl, ho, e, he, rfl⟩ := execConvword_next_cases h
  · exact execConvword_absent hp leng n (s.withIn m)
  · obtain rfl : rspCount e.count = w := Option.some.inj hw
    rw [countOf_scan he] at hm
    have hscan := scanWord_withIn he fun j _ hje hjk => hm j hje (by omega)
    exact execConvword_ok (s := s.withIn m) ho hscan

/-- Every other operation that answers does so for every IN. -/
theorem exec_withIn {i : Instr} {s t : State} (m : Memory) (hi : ∀ outp inp leng n, i ≠ .convword outp inp leng n)
    (h : exec i s = .next t) : exec i (s.withIn m) = .next (t.withIn m) := by
  cases i with
  | validate ch =>
    cases h
    rfl
  | convchar outp ch =>
    obtain ⟨rfl, rfl⟩ | ⟨rfl, out, b, hc, rfl⟩ := execConvchar_next_cases h
    · rfl
    · exact execConvchar_ok (s := s.withIn m) hc
  | convword outp inp leng n => exact absurd rfl (hi outp inp leng n)
  | convnum outp cap v =>
    obtain ⟨c, hc, rfl⟩ | ⟨rfl, hcap, out, hw, rfl⟩ := execConvnum_next_cases h
    · exact hc (s.withIn m)
    · exact execConvnum_ok (s := s.withIn m) hcap (by simpa using hw)

/-- Settles O30: a scan reads IN up to its COUNT and below its bound, and nothing else reads IN. -/
theorem inputReadFootprint : Obligations.InputReadFootprint :=
  ⟨fun _ _ _ _ _ _ _ _ h hw hm => execConvword_withIn h hw hm, fun _ _ _ m hi h => exec_withIn m hi h⟩

/-! ## Accesses past a buffer -/

/-- Settles O21: the conversion has no slot to write. -/
theorem convcharFaultsWithoutSlot : Obligations.ConvcharFaultsWithoutSlot := by
  intro s c hs ho
  exact execConvchar_fault (hs.convertInto_missing ho)

/-- A scan whose first `i` characters convert goes on at index `i`, and faults there when IN, or for a character OUT, does not
have that index. -/
theorem State.Sound.scanWord_missing {s : State} (hs : s.Sound) {k i : Nat} (hi : i < k) (hconv : ConvertsUpTo s i)
    (hmiss : s.inBuf.read i = none ∨ (∃ c, s.inBuf.read i = some c ∧ c ≠ nulChar) ∧ s.outBuf.read i = none) :
    scanWord s k 0 s.outBuf = .error .outOfBuffer := by
  obtain ⟨r, rfl⟩ : ∃ r, k = i + (r + 1) := ⟨k - i - 1, by omega⟩
  obtain ⟨out', hscan, -, -, hrest⟩ := scanWord_converts (i := 0) (m := i) (out := s.outBuf) (r + 1) fun j _ hj => by
    obtain ⟨c, hc, hn, hr, ho⟩ := hconv j (by omega)
    exact ⟨c, _, hc, hn, hr, hs.provide_eq hr, ho⟩
  rw [hscan, Nat.zero_add, scanWord]
  obtain hin | ⟨⟨c, hc, hn⟩, ho⟩ := hmiss
  · simp [hin]
  · have ho' : out'.read i = none := by rw [hrest i (.inr (by omega)), ho]
    simp [hc, hn, hs.convertInto_missing ho']

/-- Settles O28: the scan gets to the missing index below its bound. -/
theorem convwordFaultsPastBuffers : Obligations.ConvwordFaultsPastBuffers := by
  intro s leng n k hs hov hk hconv hmiss
  exact execConvword_fault hov (hs.scanWord_missing hk hconv hmiss)

/-- Settles O42: every character of the text converts, and one of its slots is missing. -/
theorem convnumFaultsPastOutput : Obligations.ConvnumFaultsPastOutput := by
  intro s cap v k hs hcap hk ho
  exact execConvnum_fault hcap (writeText_missing (hs.numText_supported v) (Nat.zero_le k) (by simpa using hk) ho)

/-! ## Buffers long enough -/

section

variable {s : State} (hs : s.Sound)
include hs

theorem execConvchar_answers {outp : Bool} {ch : Byte} (hd : CallerDuty s (.convchar outp ch)) :
    ∃ t, execConvchar outp ch s = .next t := by
  cases outp with
  | false => exact ⟨_, rfl⟩
  | true =>
    obtain ⟨out, b, hc⟩ := hs.convertInto_exists (c := ch) (hd rfl 0 Nat.zero_lt_one)
    exact ⟨_, execConvchar_ok hc⟩

theorem execConvword_answers {outp inp leng : Bool} {n : Len} (hd : CallerDuty s (.convword outp inp leng n)) :
    (∃ t, execConvword outp inp leng n s = .next t) ∨
    (execConvword outp inp leng n s = .refused .bufferOverlap ∧ s.overlap = true) := by
  cases hp : inp && outp with
  | false => exact .inl ⟨_, execConvword_absent hp leng n s⟩
  | true =>
    obtain ⟨rfl, rfl⟩ := Bool.and_eq_true_iff.1 hp
    cases ho : s.overlap with
    | true => exact .inr ⟨execConvword_overlap ho leng n, rfl⟩
    | false =>
      obtain ⟨hin, hout⟩ := hd rfl rfl
      rw [← Nat.zero_add (wordBound s.cfg leng n)] at hin hout
      obtain ⟨e, he⟩ := hs.scanWord_covered hin hout
      exact .inl ⟨_, execConvword_ok ho he⟩

theorem execConvnum_answers {outp : Bool} {cap : Len} {v : Val} (hd : CallerDuty s (.convnum outp cap v)) :
    ∃ t, execConvnum outp cap v s = .next t := by
  rcases convnum_tests outp cap v with hrej | ⟨rfl, hcap⟩
  · obtain ⟨c, hc⟩ := execConvnum_rejected hrej
    exact ⟨_, hc s⟩
  · have hslots : ∀ j, 0 ≤ j → j < 0 + (numText v).length → (s.outBuf.read j).isSome = true := fun j _ hj =>
      hd rfl j (by simp only [numText_length] at hj; omega)
    obtain ⟨out, hw⟩ := writeText_supported (hs.numText_supported v) hslots
    exact ⟨_, execConvnum_ok hcap hw⟩

end

/-- Settles O49: with the slots and characters the caller owes, every conversion is done. -/
theorem callerDutyPreventsFaults : Obligations.CallerDutyPreventsFaults := by
  intro i s hs hd
  cases i with
  | validate ch => exact .inl ⟨_, rfl⟩
  | convchar outp ch => exact .inl (execConvchar_answers hs hd)
  | convword outp inp leng n => exact execConvword_answers hs hd
  | convnum outp cap v => exact .inl (execConvnum_answers hs hd)

end Sys2Proof.Machine

/-! PROOFS. 30_encoding.md: the request word and its decoder (rules R48 to R51 and R55), the response word (rule R54), and the
slots (rules R41 and R42). -/

namespace Sys2Proof

/-! ## The fields of the request word -/

section

variable (q : Req)

theorem op_toNat : (Req.op q).toNat = q.toNat % 4 := by
  simp [Req.op]

theorem outp_toNat : (Req.outp q).toNat = q.toNat / 4 % 2 := Nat.toNat_testBit ..

theorem inp_toNat : (Req.inp q).toNat = q.toNat / 8 % 2 := Nat.toNat_testBit ..

theorem leng_toNat : (Req.leng q).toNat = q.toNat / 16 % 2 := Nat.toNat_testBit ..

theorem reserved_toNat : (Req.reserved q).toNat = q.toNat / 32 % 8 := by
  simp [Req.reserved, Nat.shiftRight_eq_div_pow]

theorem ch_toNat : (Req.ch q).toNat = q.toNat / 256 % 256 := by
  simp [Req.ch, Nat.shiftRight_eq_div_pow]

theorem n_toNat : (Req.n q).toNat = q.toNat / 65536 % 65536 := by
  simp [Req.n, Nat.shiftRight_eq_div_pow]

/-- VAL reaches to the top bit of the word. -/
theorem val_toNat : (Req.val q).toNat = q.toNat / 4294967296 := by
  simp [Req.val, Nat.shiftRight_eq_div_pow]
  omega

end

/-- Settles O3: the eight fields are consecutive digits of the word, in the bases of their widths. -/
theorem requestWordLayout : Obligations.RequestWordLayout := by
  intro q
  rw [op_toNat, outp_toNat, inp_toNat, leng_toNat, reserved_toNat, ch_toNat, n_toNat, val_toNat]
  omega

/-! ## The decoding rule -/

/-- Masking with a field's bits keeps that field alone. -/
theorem and_reqField_allOnes (q : Req) (a w : Nat) :
    q &&& reqField (BitVec.allOnes w) a = reqField (q.extractLsb' a w) a := by
  apply BitVec.eq_of_getLsbD_eq
  intro i hi
  rw [BitVec.getLsbD_and]
  by_cases ha : a ≤ i
  · have hback : a + (i - a) = i := by omega
    rw [reqField_inside _ hi ha, reqField_inside _ hi ha, BitVec.getLsbD_extractLsb', BitVec.getLsbD_allOnes, hback,
      Bool.and_comm]
  · rw [reqField_below _ (by omega), reqField_below _ (by omega), Bool.and_false]

/-- The mask 0xE0 shows REQ[7:5]. -/
theorem and_reservedMask (q : Req) : q &&& 0xE0#96 = reqField (Req.reserved q) 5 :=
  and_reqField_allOnes q 5 3

/-- The mask 0xE3 of the opcode table hides neither OP nor REQ[7:5]. -/
theorem op_and_headerMask (q : Req) : Req.op (q &&& 0xE3#96) = Req.op q :=
  BitVec.extractLsb'_and.trans BitVec.and_allOnes

theorem reserved_and_headerMask (q : Req) : Req.reserved (q &&& 0xE3#96) = Req.reserved q :=
  BitVec.extractLsb'_and.trans BitVec.and_allOnes

/-- A word that matches a row of the opcode table has the row's OP and REQ[7:5]. -/
theorem header_of_match {q m : Req} (h : q &&& 0xE3#96 = m) : Req.reserved q = Req.reserved m ∧ Req.op q = Req.op m := by
  rw [← h, reserved_and_headerMask, op_and_headerMask]
  exact ⟨rfl, rfl⟩

theorem decode_reserved {q : Req} (hr : Req.reserved q ≠ 0#3) : decode q = .error .reservedBits := by
  simp [decode, hr]

section

variable {q : Req} (hr : Req.reserved q = 0#3)
include hr

theorem decode_validate (ho : Req.op q = 0b00#2) : decode q = .ok (.validate (Req.ch q)) := by
  simp [decode, hr, ho]

theorem decode_convchar (ho : Req.op q = 0b01#2) : decode q = .ok (.convchar (Req.outp q) (Req.ch q)) := by
  simp [decode, hr, ho]

theorem decode_convword (ho : Req.op q = 0b10#2) :
    decode q = .ok (.convword (Req.outp q) (Req.inp q) (Req.leng q) (if Req.leng q then Req.n q else 0#16)) := by
  simp [decode, hr, ho]

theorem decode_convnum (ho : Req.op q = 0b11#2) :
    decode q = .ok (.convnum (Req.outp q) (Req.n q) (Req.val q)) := by
  simp [decode, hr, ho]

end

/-- Settles O4: the masked word fixes REQ[7:5] and OP, and each OP has its equation of the decoder. -/
theorem operationSelectedByOp : Obligations.OperationSelectedByOp := by
  intro q
  refine ⟨fun h => ?_, fun h => ?_, fun h => ?_, fun h => ?_, fun h => decode_reserved fun hr => h ?_⟩
  · obtain ⟨hr, ho⟩ := header_of_match h
    exact decode_validate hr ho
  · obtain ⟨hr, ho⟩ := header_of_match h
    exact decode_convchar hr ho
  · obtain ⟨hr, ho⟩ := header_of_match h
    exact ⟨_, decode_convword hr ho, fun hl => if_pos hl⟩
  · obtain ⟨hr, ho⟩ := header_of_match h
    exact decode_convnum hr ho
  · rw [and_reservedMask, hr]
    decide

end Sys2Proof

namespace Sys2Proof.Machine

/-! ## Fields that are not used, and reserved bits -/

/-- A transaction sees the request word through the decoder alone. -/
theorem transact_eq_of_decode_eq {q q' : Req} (h : decode q = decode q') (d : Interference) (s : State) :
    transact q d s = transact q' d s := by
  simp only [transact, h]

/-- There are four operation codes (30_encoding.md rule R55). -/
theorem op_cases : ∀ op : BitVec 2, op = 0b00#2 ∨ op = 0b01#2 ∨ op = 0b10#2 ∨ op = 0b11#2 := by decide

/-- Settles O5: the fields an operation uses fix what the decoder reads. -/
theorem unusedFieldsIgnored : Obligations.UnusedFieldsIgnored := by
  intro q q' d s hres hop hch hout hin hn hval
  apply transact_eq_of_decode_eq
  by_cases hr : Req.reserved q = 0#3
  · have hr' := hres ▸ hr
    rcases op_cases (Req.op q) with ho | ho | ho | ho <;> have ho' := hop ▸ ho
    · rw [decode_validate hr ho, decode_validate hr' ho', hch (.inl ho)]
    · rw [decode_convchar hr ho, decode_convchar hr' ho', hch (.inr ho), hout (by simp [ho])]
    · obtain ⟨hi, hl⟩ := hin ho
      have hbound : (if Req.leng q then Req.n q else 0#16) = if Req.leng q' then Req.n q' else 0#16 := by
        rw [← hl]
        exact ite_congr rfl (fun h => hn (.inl ⟨ho, h⟩)) fun _ => rfl
      rw [decode_convword hr ho, decode_convword hr' ho', hbound, hout (by simp [ho]), hi, hl]
    · rw [decode_convnum hr ho, decode_convnum hr' ho', hout (by simp [ho]), hn (.inr ho), hval ho]
  · rw [decode_reserved hr, decode_reserved (hres ▸ hr)]

@[simp] theorem refuseSecond_outBuf (d : Interference) (s : State) : (refuseSecond d s).outBuf = s.outBuf := by
  rw [refuseSecond_eq]

@[simp] theorem refuseSecond_inBuf (d : Interference) (s : State) : (refuseSecond d s).inBuf = s.inBuf := by
  rw [refuseSecond_eq]

@[simp] theorem refuseSecond_rsp (d : Interference) (s : State) : (refuseSecond d s).rsp = s.rsp := by
  rw [refuseSecond_eq]

/-- The reason of a refusal that has been taken stays when a second request arrives (assumption entry 8). -/
theorem refuseSecond_takeRefusal_refused (d : Interference) (s : State) (r : Refusal) :
    (refuseSecond d (s.takeRefusal r)).refused = s.refused.or (some r) := by
  rcases refuseSecond_refused d (s.takeRefusal r) with h | h <;> simp [h]

/-- Settles O7: both refusals that can meet such a word leave the buffers, drop the response and set the mark, and without an
earlier mark the refusal is that of the reserved bits. -/
theorem reservedBitsRefused : Obligations.ReservedBitsRefused := by
  intro q d s hq
  by_cases hs : s.refused = some .illegalConfig
  · rw [transact_illegal hs]
    exact ⟨rfl, rfl, rfl, by simp, fun hnone => by simp [hs] at hnone⟩
  · rw [transact_reserved hs (decode_reserved hq)]
    have hmark := refuseSecond_takeRefusal_refused d s .reservedBits
    exact ⟨by simp, by simp, by simp, by simp [hmark], fun hnone => by simp [hmark, hnone]⟩

/-! ## The response word -/

/-- A CONVCHAR answers OK, with no COUNT. -/
theorem execConvchar_rsp {outp : Bool} {ch : Byte} {s t : State} (h : execConvchar outp ch s = .next t) :
    ∃ ok, t.rsp = some (rspOk ok) := by
  obtain ⟨-, rfl⟩ | ⟨-, _, ok, -, rfl⟩ := execConvchar_next_cases h
  · exact ⟨false, rfl⟩
  · exact ⟨ok, rfl⟩

/-- A CONVWORD answers COUNT, with no OK. -/
theorem execConvword_rsp {outp inp leng : Bool} {n : Len} {s t : State}
    (h : execConvword outp inp leng n s = .next t) : ∃ k, t.rsp = some (rspCount k) := by
  obtain ⟨-, rfl⟩ | ⟨-, -, -, e, -, rfl⟩ := execConvword_next_cases h
  · exact ⟨0, rfl⟩
  · exact ⟨e.count, rfl⟩

/-- A CONVNUM answers OK, with no COUNT. -/
theorem execConvnum_rsp {outp : Bool} {cap : Len} {v : Val} {s t : State}
    (h : execConvnum outp cap v s = .next t) : ∃ ok, t.rsp = some (rspOk ok) := by
  obtain ⟨_, -, rfl⟩ | ⟨-, -, _, -, rfl⟩ := execConvnum_next_cases h
  · exact ⟨false, rfl⟩
  · exact ⟨true, rfl⟩

/-- Settles O45: an operation answers `RSP{OK}` or `RSP{COUNT}`, and the other fields of those words are 0. -/
theorem undefinedResponseBitsAreZero : Obligations.UndefinedResponseBitsAreZero := by
  intro i s t h
  cases i with
  | validate ch =>
    cases h
    exact ⟨_, rfl, reserved_rspWord _ _, countOf_rspOk _⟩
  | convchar outp ch =>
    obtain ⟨ok, hrsp⟩ := execConvchar_rsp h
    exact ⟨_, hrsp, reserved_rspWord _ _, countOf_rspOk ok⟩
  | convword outp inp leng n =>
    obtain ⟨k, hrsp⟩ := execConvword_rsp h
    exact ⟨_, hrsp, reserved_rspWord _ _, okOf_rspCount k⟩
  | convnum outp cap v =>
    obtain ⟨ok, hrsp⟩ := execConvnum_rsp h
    exact ⟨_, hrsp, reserved_rspWord _ _, countOf_rspOk ok⟩

/-! ## The slots -/

/-- Settles O16: each view lists the segment bits of the slot in their order. -/
theorem slotViewsAreProjections : Obligations.SlotViewsAreProjections := by
  intro s
  exact ⟨rfl, Vector.toList_ofFn, rfl⟩

/-- Bit 7 of every value of an admissible GLYPH is clear (40_table_provider.md rule R61). -/
theorem glyphOf_reservedBit {cfg : Cfg} (hl : cfgLegal cfg = true) (c : Byte) : (glyphOf cfg c).getLsbD 7 = false := by
  obtain ⟨-, hg, -⟩ := (cfgLegal_iff cfg).1 hl
  obtain ⟨-, hbit, -⟩ := (glyphAdmissible_iff cfg.glyph).1 hg
  exact hbit c

/-- Each slot of `m'` reads as in `m`, or holds a value with bit 7 clear (30_encoding.md rule R41). -/
def Memory.KeptOrClear (m m' : Memory) : Prop :=
  ∀ a, m'.read a = m.read a ∨ ∃ v : Slot, m'.read a = some v ∧ v.getLsbD 7 = false

theorem Memory.KeptOrClear.refl (m : Memory) : m.KeptOrClear m := fun _ => .inl rfl

/-- Writing a value with bit 7 clear. -/
theorem Memory.keptOrClear_write {m m' : Memory} {i : Nat} {v : Slot} (h : m.write i v = some m')
    (hv : v.getLsbD 7 = false) : m.KeptOrClear m' := by
  intro a
  by_cases ha : a = i
  · exact .inr ⟨v, ha ▸ Memory.read_write_same h, hv⟩
  · exact .inl (Memory.read_write_other h ha)

section

variable {s : State} (hs : s.Sound)
include hs

/-- What the provider of a sound state gives has bit 7 clear. -/
theorem State.Sound.provide_reservedBit {c : Byte} {g : Slot} (hc : inRange s.cfg.range c = true)
    (hg : provide s.cfg s.rom c = some g) : g.getLsbD 7 = false := by
  rw [hs.provide_eq hc] at hg
  cases hg
  exact glyphOf_reservedBit hs.legal c

/-- A conversion writes the provider's value or the all-off slot. -/
theorem State.Sound.convertInto_keptOrClear {c : Byte} {i : Nat} {out out' : Memory} {b : Bool}
    (h : convertInto s c i out = .ok (out', b)) : out.KeptOrClear out' := by
  obtain ⟨v, hw, hr, hprovided, hoff⟩ := convertInto_ok h
  refine Memory.keptOrClear_write hw ?_
  cases b with
  | false =>
    rw [hoff rfl]
    decide
  | true => exact hs.provide_reservedBit hr (hprovided rfl)

/-- A scan writes the provider's values below its count, and at its count nothing or the all-off slot. -/
theorem State.Sound.scanWord_keptOrClear {k i : Nat} {out : Memory} {e : ScanEnd} (h : scanWord s k i out = .ok e) :
    out.KeptOrClear e.out := by
  obtain ⟨-, -, -, hconverted, hbefore, hafter, hstop⟩ := scanWord_ok h
  intro a
  rcases Nat.lt_trichotomy a e.count with hlt | rfl | hgt
  · by_cases hi : i ≤ a
    · obtain ⟨c, g, -, -, hr, hg, hread⟩ := hconverted a hi hlt
      exact .inr ⟨g, hread, hs.provide_reservedBit hr hg⟩
    · exact .inl (hbefore a (by omega))
  · revert hstop
    cases e.stop with
    | bound =>
      rintro ⟨-, hread⟩
      exact .inl hread
    | terminator =>
      rintro ⟨-, -, hread⟩
      exact .inl hread
    | unsupported =>
      rintro ⟨-, -, hread⟩
      exact .inr ⟨allOff, hread, by decide⟩
  · exact .inl (hafter a hgt)

/-- A text is written with the provider's values, one slot for each character. -/
theorem State.Sound.writeText_keptOrClear {text : List Byte} {i : Nat} {out out' : Memory}
    (h : writeText s text i out = .ok out') : out.KeptOrClear out' := by
  obtain ⟨-, hwritten, hother⟩ := writeText_ok h
  intro a
  by_cases ha : a < i ∨ i + text.length ≤ a
  · exact .inl (hother a ha)
  · obtain ⟨j, rfl⟩ := Nat.exists_eq_add_of_le (show i ≤ a by omega)
    have hj : j < text.length := by omega
    obtain ⟨g, hr, hg, hread⟩ := hwritten j text[j] (List.getElem?_eq_getElem hj)
    exact .inr ⟨g, hread, hs.provide_reservedBit hr hg⟩

/-- Every operation that answers writes slots with bit 7 clear only. -/
theorem State.Sound.exec_keptOrClear {i : Instr} {t : State} (h : exec i s = .next t) :
    s.outBuf.KeptOrClear t.outBuf := by
  cases i with
  | validate ch =>
    cases h
    exact .refl _
  | convchar outp ch =>
    obtain ⟨-, rfl⟩ | ⟨-, out, b, hc, rfl⟩ := execConvchar_next_cases h
    · exact .refl _
    · exact hs.convertInto_keptOrClear hc
  | convword outp inp leng n =>
    obtain ⟨-, rfl⟩ | ⟨-, -, -, e, he, rfl⟩ := execConvword_next_cases h
    · exact .refl _
    · exact hs.scanWord_keptOrClear he
  | convnum outp cap v =>
    obtain ⟨c, -, rfl⟩ | ⟨-, -, out, hw, rfl⟩ := execConvnum_next_cases h
    · exact .refl _
    · exact hs.writeText_keptOrClear hw

end

/-- Settles O46: GLYPH's values have bit 7 clear, and an operation writes those values or the all-off slot. -/
theorem writtenSlotsClearReservedBit : Obligations.WrittenSlotsClearReservedBit :=
  ⟨fun _ c hl => glyphOf_reservedBit hl c, fun _ _ _ a hs h => hs.exec_keptOrClear h a⟩

end Sys2Proof.Machine

/-! PROOFS. 40_table_provider.md: the ranges (rules R57 and R58), the defaults (rules R62 and R69), and the equivalence of the
two strategies (rule R71). -/

namespace Sys2Proof.Machine

/-! ## The two strategies -/

/-- Settles O13: each strategy gives GLYPH on the active set, and GLYPH does not depend on the strategy. -/
theorem strategiesEquivalent : Obligations.StrategiesEquivalent := by
  intro cfg c _ hg ha hc
  exact ⟨provideTable_romOf (cfg := { cfg with strategy := .table }) rfl ha hc,
    computedSlot_eq_glyphOf (cfg := { cfg with strategy := .computed }) hg hc⟩

/-! ## Membership in the ranges -/

/-- The bounds of `between` are inclusive (30_encoding.md rule R44). -/
theorem between_iff {lo hi : Nat} {c : Byte} : between lo hi c = true ↔ lo ≤ c.toNat ∧ c.toNat ≤ hi := by
  simp [between]

/-- The members of DIGITS (40_table_provider.md rule R57). -/
theorem inRange_digits_iff (c : Byte) :
    inRange .digits c = true ↔ (0x30 ≤ c.toNat ∧ c.toNat ≤ 0x39) ∨ c = 0x2D#8 := by
  simp [inRange, isDigitChar, between_iff, minusChar]

/-- DIGITS_ERR adds the six error glyphs to DIGITS (40_table_provider.md rule R57). -/
theorem inRange_digitsErr_iff (c : Byte) : inRange .digitsErr c = true ↔ inRange .digits c = true ∨ c ∈ errChars := by
  simp [inRange]

/-- The symbols of FULL other than `-` (40_table_provider.md rule R57). -/
theorem isSymbolChar_iff (c : Byte) :
    isSymbolChar c = true ↔
      c ∈ [0x28#8, 0x29#8, 0x3C#8, 0x3D#8, 0x3E#8, 0x5B#8, 0x5D#8, 0x5F#8, 0x7C#8] := by
  simp only [isSymbolChar, Bool.or_eq_true, between_iff, beq_iff_eq, List.mem_cons, List.not_mem_nil, or_false]
  bv_omega

/-- The members of FULL (40_table_provider.md rule R57). -/
theorem inRange_full_iff (c : Byte) :
    inRange .full c = true ↔
      (0x30 ≤ c.toNat ∧ c.toNat ≤ 0x39) ∨ (0x61 ≤ c.toNat ∧ c.toNat ≤ 0x7A) ∨ (0x41 ≤ c.toNat ∧ c.toNat ≤ 0x5A) ∨
      c ∈ [0x28#8, 0x29#8, 0x5B#8, 0x5D#8, 0x5F#8, 0x2D#8, 0x7C#8, 0x3D#8, 0x3E#8, 0x3C#8] := by
  simp only [inRange, isDigitChar, isLetterChar, Bool.or_eq_true, between_iff, isSymbolChar_iff, minusChar, beq_iff_eq,
    List.mem_cons, List.not_mem_nil, or_false]
  exact iff_of_eq (by ac_rfl)

/-- Every member of a range is a byte below 0x80 (40_table_provider.md rule R58). -/
theorem toNat_lt_of_inRange {r : Range} {c : Byte} (h : inRange r c = true) : c.toNat < 0x80 := by
  have hfull := (inRange_full_iff c).1 (inRange_full_of_inRange h)
  simp only [List.mem_cons, List.not_mem_nil, or_false] at hfull
  bv_omega

/-- A byte from 0x80 on is in no range (40_table_provider.md rule R58). -/
theorem inRange_of_bit7 (r : Range) {c : Byte} (h : c.getLsbD 7 = true) : inRange r c = false := by
  have hle : 0x80 ≤ c.toNat := Nat.ge_two_pow_of_testBit h
  exact Bool.eq_false_iff.2 fun hr => absurd (toNat_lt_of_inRange hr) (by omega)

/-- The space is in no range (40_table_provider.md rule R58). -/
theorem inRange_space (r : Range) : inRange r 0x20#8 = false := by
  cases r <;> decide

/-! The sizes of the three sets (40_table_provider.md rule R57). -/

theorem members_digits_length : (members .digits).length = 11 := by decide

theorem members_digitsErr_length : (members .digitsErr).length = 17 := by decide

theorem members_full_length : (members .full).length = 72 := by decide

/-- Settles O9: the three sets member by member, their nesting and sizes, and the bytes that are in none. -/
theorem rangeSets : Obligations.RangeSets :=
  ⟨inRange_digits_iff, inRange_digitsErr_iff, inRange_full_iff, inRange_of_digits, inRange_of_digitsErr,
    members_digits_length, members_digitsErr_length, members_full_length,
    fun r => ⟨inRange_nulChar r, inRange_space r, fun _ => inRange_of_bit7 r⟩⟩

/-! ## The defaults -/

/-- H_DEFAULT of `R r E e O o`, in that order (40_table_provider.md rule R69). -/
theorem hDefault_errChars :
    [hDefault 0x52#8, hDefault 0x72#8, hDefault 0x45#8, hDefault 0x65#8, hDefault 0x4F#8, hDefault 0x6F#8] =
      [0#8, 1#8, 2#8, 3#8, 4#8, 5#8] := by decide

/-- Settles O10: DEFAULT_GLYPH is admissible, constraint by constraint, and H_DEFAULT has the values of rule R69. -/
theorem defaultsAreAdmissible : Obligations.DefaultsAreAdmissible := by
  obtain ⟨hoff, hbit7, hE, hR, hO⟩ := (glyphAdmissible_iff defaultGlyph).1 resetGlyph_admissible
  exact ⟨hoff, hbit7, hE, hR, hO, hDefault_errChars⟩

end Sys2Proof.Machine

/-! PROOFS. 41_character.md: what CONVCHAR answers and writes (rules R74 and R75). -/

namespace Sys2Proof.Machine

/-! ## The slot of a character -/

/-- What the conversion of a character writes: its glyph in range, all-off out of range (41_character.md rule R74). -/
def convertedSlot (cfg : Cfg) (c : Byte) : Slot :=
  if inRange cfg.range c then glyphOf cfg c else allOff

@[simp] theorem convertedSlot_inRange {cfg : Cfg} {c : Byte} (hc : inRange cfg.range c = true) :
    convertedSlot cfg c = glyphOf cfg c := if_pos hc

@[simp] theorem convertedSlot_outOfRange {cfg : Cfg} {c : Byte} (hc : inRange cfg.range c = false) :
    convertedSlot cfg c = allOff := by simp [convertedSlot, hc]

/-- In a sound state a conversion into a slot that exists writes the character's slot, and succeeds for a character in
range. -/
theorem State.Sound.convertInto_eq {s : State} (hs : s.Sound) {c : Byte} {i : Nat} {out : Memory}
    (ho : (out.read i).isSome = true) :
    ∃ out', out.write i (convertedSlot s.cfg c) = some out' ∧
      convertInto s c i out = .ok (out', inRange s.cfg.range c) := by
  cases hc : inRange s.cfg.range c with
  | false => rw [convertedSlot_outOfRange hc]; exact convertInto_unsupported hc ho
  | true => rw [convertedSlot_inRange hc]; exact convertInto_supported hc (hs.provide_eq hc) ho

/-! ## CONVCHAR with its output present -/

/-- CONVCHAR with `OUT[0]` present writes the character's slot there, and answers with the membership of the character. -/
theorem State.Sound.execConvchar_eq {s : State} (hs : s.Sound) (ho : s.outBuf.Covers 1) (c : Byte) :
    ∃ out, s.outBuf.write 0 (convertedSlot s.cfg c) = some out ∧
      execConvchar true c s =
        .next (s.respond out (rspOk (inRange s.cfg.range c)) (convcharClass (inRange s.cfg.range c))) := by
  obtain ⟨out, hw, hcv⟩ := hs.convertInto_eq (c := c) (ho 0 Nat.zero_lt_one)
  exact ⟨out, hw, execConvchar_ok hcv⟩

/-- The response of CONVCHAR with `OUT[0]` present, and what `OUT[0]` then holds. -/
theorem State.Sound.execConvchar_rsp_slot {s : State} (hs : s.Sound) (ho : s.outBuf.Covers 1) (c : Byte) :
    ∃ t, execConvchar true c s = .next t ∧ t.rsp = some (rspOk (inRange s.cfg.range c)) ∧
      t.outBuf.read 0 = some (convertedSlot s.cfg c) := by
  obtain ⟨out, hw, he⟩ := hs.execConvchar_eq ho c
  exact ⟨_, he, rfl, Memory.read_write_same hw⟩

/-- Settles O18: CONVCHAR answers the membership of its character, as VALIDATE does, and `OUT[0]` holds the character's
slot. -/
theorem convcharRoundTripAndRejection : Obligations.ConvcharRoundTripAndRejection := by
  intro s c hs
  refine ⟨fun hc ho => ?_, fun hc ho => ?_, ⟨_, rfl, rfl⟩, fun ho => ?_⟩
  · have hspec := hs.execConvchar_rsp_slot ho c
    rw [hc, convertedSlot_inRange hc] at hspec
    exact hspec
  · have hspec := hs.execConvchar_rsp_slot ho c
    rw [hc, convertedSlot_outOfRange hc] at hspec
    exact hspec
  · obtain ⟨t, he, hr, -⟩ := hs.execConvchar_rsp_slot ho c
    exact ⟨t, _, he, rfl, hr⟩

end Sys2Proof.Machine

/-! PROOFS. 42_word.md: the bound of a CONVWORD, where its scan stops, and what OUT then holds (rules R76 to R79). -/

namespace Sys2Proof.Machine

/-! ## The bound -/

@[simp] theorem wordBound_explicit (cfg : Cfg) (n : Len) : wordBound cfg true n = n.toNat := rfl

@[simp] theorem wordBound_default (cfg : Cfg) (n : Len) : wordBound cfg false n = cfg.maxWordLen.toNat := rfl

/-- Two configurations with the same MAX_WORD_LEN give a request the same bound. -/
theorem wordBound_congr {cfg cfg' : Cfg} (h : cfg'.maxWordLen = cfg.maxWordLen) (leng : Bool) (n : Len) :
    wordBound cfg' leng n = wordBound cfg leng n := by
  simp only [wordBound, h]

/-- Settles O22: CONVWORD uses LENG and N through the bound alone. -/
theorem wordBoundRule : Obligations.WordBoundRule := by
  intro cfg n s outp inp
  exact ⟨wordBound_explicit cfg n, wordBound_default cfg n, by
    simp only [exec_convword, execConvword, wordBound_explicit, wordBound_default]⟩

/-! ## The response of a scan -/

/-- The response word with COUNT = k, as its value (30_encoding.md rule R53). -/
theorem rspCount_eq_ofNat {k : Nat} (hk : k < 2 ^ 16) : rspCount k = BitVec.ofNat 32 (65536 * k) := by
  apply BitVec.eq_of_toNat_eq
  have hmod : k % 65536 = k := Nat.mod_eq_of_lt hk
  simp [rspCount, rspWord, Nat.shiftLeft_eq, hmod, Nat.mul_comm]

/-- With a bound of 0 the class is that of an invalid argument, whatever the stop (60_exceptions.md rule R89). -/
@[simp] theorem scanClass_zero (stop : ScanStop) : scanClass 0 stop = .invalidArgument := if_pos rfl

theorem scanClass_unsupported {bound : Nat} (h : 0 < bound) : scanClass bound .unsupported = .unsupportedCharacter :=
  if_neg (by omega)

/-- CONVWORD with a bound of 0 reads nothing and writes nothing (42_word.md rules R77 and R79). -/
theorem execConvword_zeroBound {s : State} {leng : Bool} {n : Len} (ho : s.overlap = false)
    (hb : wordBound s.cfg leng n = 0) :
    execConvword true true leng n s = .next (s.respond s.outBuf (rspCount 0) .invalidArgument) := by
  have hscan : scanWord s (wordBound s.cfg leng n) 0 s.outBuf = .ok ⟨s.outBuf, 0, .bound⟩ := by
    rw [hb, scanWord]
  rw [execConvword_ok ho hscan, hb, scanClass_zero]

/-- Settles O23: an absent buffer ends a CONVWORD before its scan, and a bound of 0 ends the scan before its first read. -/
theorem convwordNullOrZeroLength : Obligations.ConvwordNullOrZeroLength := by
  intro s outp inp leng n h
  cases hp : inp && outp with
  | false => exact execConvword_absent hp leng n s
  | true =>
    obtain ⟨rfl, rfl⟩ := Bool.and_eq_true_iff.1 hp
    obtain ⟨hb, ho⟩ : wordBound s.cfg leng n = 0 ∧ s.overlap = false := by simpa using h
    exact execConvword_zeroBound ho hb

/-! ## Where a scan stops -/

/-- A scan whose first `i` characters convert goes on at index `i`, with the slots it began with. -/
theorem State.Sound.scanWord_reaches {s : State} (hs : s.Sound) (k : Nat) {i : Nat} (hconv : ConvertsUpTo s i) :
    ∃ out, scanWord s (i + k) 0 s.outBuf = scanWord s k i out ∧ out.map Prod.fst = s.outBuf.map Prod.fst := by
  obtain ⟨out, hscan, hind, -⟩ := scanWord_converts (i := 0) (m := i) (out := s.outBuf) k fun j _ hj => by
    obtain ⟨c, hc, hn, hr, ho⟩ := hconv j (by omega)
    exact ⟨c, _, hc, hn, hr, hs.provide_eq hr, ho⟩
  exact ⟨out, by rw [hscan, Nat.zero_add], hind⟩

/-- A scan whose first `i` characters convert stops at an unsupported character at index `i`. -/
theorem State.Sound.scanWord_unsupported {s : State} (hs : s.Sound) {k i : Nat} {c : Byte} (hi : i < k)
    (hconv : ConvertsUpTo s i) (hc : s.inBuf.read i = some c) (hn : c ≠ nulChar)
    (hr : inRange s.cfg.range c = false) (ho : (s.outBuf.read i).isSome = true) :
    ∃ out, scanWord s k 0 s.outBuf = .ok ⟨out, i, .unsupported⟩ := by
  obtain ⟨r, rfl⟩ : ∃ r, k = i + (r + 1) := ⟨k - i - 1, by omega⟩
  obtain ⟨out, hscan, hind⟩ := hs.scanWord_reaches (r + 1) hconv
  obtain ⟨out', -, hcv⟩ := convertInto_unsupported (i := i) (out := out) hr (by rwa [Memory.isSome_of_indices hind])
  exact ⟨out', by rw [hscan]; simp [scanWord, hc, hn, hcv]⟩

/-- Of two scans of the same IN with the same bound, the one whose state supports fewer characters gets no further: where the
other stops, it finds the bound, the terminator, or a character it does not support either. -/
theorem scanWord_count_le {s s' : State} {k i : Nat} {out out' : Memory} {e e' : ScanEnd}
    (hin : s'.inBuf = s.inBuf) (hrange : ∀ c, inRange s.cfg.range c = true → inRange s'.cfg.range c = true)
    (h : scanWord s k i out = .ok e) (h' : scanWord s' k i out' = .ok e') : e.count ≤ e'.count := by
  obtain ⟨-, hle, -, hconverted, -⟩ := scanWord_ok h
  obtain ⟨hge', -, -, -, -, -, hstop'⟩ := scanWord_ok h'
  by_contra hlt
  obtain ⟨c, -, hc, hn, hr, -⟩ := hconverted e'.count hge' (by omega)
  rw [hin] at hstop'
  cases hs : e'.stop <;> rw [hs] at hstop'
  case bound => exact absurd hstop'.1 (by omega)
  case terminator =>
    obtain ⟨-, hread, -⟩ := hstop'
    exact hn (Option.some.inj (hc.symm.trans hread))
  case unsupported =>
    obtain ⟨-, ⟨d, hd, -, hdr⟩, -⟩ := hstop'
    obtain rfl : c = d := Option.some.inj (hc.symm.trans hd)
    simp [hrange c hr] at hdr

/-- Settles O29: where the wider instance stops, the narrower one has stopped too. -/
theorem narrowerRangeCountsNoMore : Obligations.NarrowerRangeCountsNoMore := by
  intro s t t' cfg outp inp leng n w w' _ _ hmax hrange h h' hw hw'
  change execConvword outp inp leng n (s.reconfigure cfg) = .next t' at h'
  obtain ⟨-, rfl⟩ | ⟨rfl, rfl, -, e, he, rfl⟩ := execConvword_next_cases h
  · cases hw
    simp
  · obtain ⟨habs, -⟩ | ⟨-, -, -, e', he', rfl⟩ := execConvword_next_cases h'
    · cases habs
    · cases hw
      cases hw'
      rw [countOf_scan he, countOf_scan he']
      rw [State.reconfigure_cfg, wordBound_congr hmax] at he'
      exact scanWord_count_le (State.reconfigure_inBuf s cfg) hrange he he'

/-! ## What OUT holds after a scan -/

/-- In a sound state a scan leaves the glyph of each character it has converted. -/
theorem State.Sound.scanWord_glyph {s : State} (hs : s.Sound) {k i j : Nat} {out : Memory} {e : ScanEnd}
    (h : scanWord s k i out = .ok e) (hi : i ≤ j) (hj : j < e.count) :
    ∃ c, s.inBuf.read j = some c ∧ inRange s.cfg.range c = true ∧ e.out.read j = some (glyphOf s.cfg c) := by
  obtain ⟨-, -, -, hconverted, -⟩ := scanWord_ok h
  obtain ⟨c, g, hc, -, hr, hg, hread⟩ := hconverted j hi hj
  exact ⟨c, hc, hr, by rw [hread, ← hg, hs.provide_eq hr]⟩

/-- The slot at which a scan stops is untouched, or all-off for an unsupported character (42_word.md rules R78 and R79). -/
theorem scanWord_stopSlot {s : State} {k i : Nat} {out : Memory} {e : ScanEnd} (h : scanWord s k i out = .ok e) :
    e.out.read e.count = out.read e.count ∨
    e.out.read e.count = some allOff ∧ ∃ c, s.inBuf.read e.count = some c ∧ c ≠ nulChar ∧
      inRange s.cfg.range c = false := by
  obtain ⟨-, -, -, -, -, -, hstop⟩ := scanWord_ok h
  cases he : e.stop <;> rw [he] at hstop
  case bound => exact .inl hstop.2
  case terminator => exact .inl hstop.2.2
  case unsupported => exact .inr ⟨hstop.2.2, hstop.2.1⟩

/-- Settles O27: the slots of a scan that has ended, or untouched slots and COUNT = 0 without both buffers. -/
theorem convwordSlotsAfterCount : Obligations.ConvwordSlotsAfterCount := by
  intro s t outp inp leng n w hs h hw
  obtain ⟨-, rfl⟩ | ⟨-, -, -, e, he, rfl⟩ := execConvword_next_cases h <;> cases hw
  · simp
  · rw [countOf_scan he]
    obtain ⟨-, hle, -, -, -, hafter, -⟩ := scanWord_ok he
    exact ⟨by omega, fun j hj => hs.scanWord_glyph he (Nat.zero_le j) hj, scanWord_stopSlot he, hafter⟩

/-- Settles O26: the scan reaches index k and stops there. -/
theorem convwordStopsAtUnsupported : Obligations.ConvwordStopsAtUnsupported := by
  intro s leng n k c hs hover hk hconv hc hn hr ho
  obtain ⟨out, he⟩ := hs.scanWord_unsupported hk hconv hc hn hr ho
  obtain ⟨-, -, hind, -, -, hafter, -, -, hoff⟩ := scanWord_ok he
  have hcount : k < 2 ^ 16 := hk.trans (wordBound_lt s.cfg leng n)
  refine ⟨_, execConvword_ok hover he, ⟨rfl, hind⟩, congrArg some (rspCount_eq_ofNat hcount),
    congrArg some (scanClass_unsupported (by omega)), fun j d hj hd => ?_, hoff, hafter⟩
  obtain ⟨d', hd', -, hread⟩ := hs.scanWord_glyph he (Nat.zero_le j) hj
  obtain rfl : d = d' := Option.some.inj (hd.symm.trans hd')
  exact hread

end Sys2Proof.Machine

/-! PROOFS. 43_number.md: the digits of a magnitude (rules R80 to R85), and what CONVNUM answers and writes (rules R86 to
R88). -/

namespace Sys2Proof.Machine

/-! ## The magnitude -/

/-- An operand is negative when its two's complement value is (43_number.md rule R80). -/
theorem isNeg_iff (v : Val) : isNeg v = true ↔ v.toInt < 0 := by
  simp [isNeg, BitVec.msb_eq_toInt]

/-- The magnitude is `|v|` (43_number.md rule R80). -/
theorem magnitude_toNat (v : Val) : (magnitude v).toNat = v.toInt.natAbs := by
  rw [magnitude, BitVec.toInt_eq_msb_cond, isNeg]
  cases hn : v.msb with
  | false => rfl
  | true =>
    have hlarge := BitVec.msb_eq_true_iff_two_mul_ge.1 hn
    simp only [if_true]
    bv_omega

/-- `|v|` is at most 2^63 (43_number.md rule R80). -/
theorem natAbs_toInt_le (v : Val) : v.toInt.natAbs ≤ 2 ^ 63 := by
  have hlo := BitVec.le_toInt v
  have hhi := BitVec.toInt_lt (x := v)
  omega

/-- Settles O32: the magnitude is `|v|`, whose bound INT64_MIN reaches. -/
theorem magnitudeIsAbsoluteValue : Obligations.MagnitudeIsAbsoluteValue := by
  refine ⟨fun v => ⟨by simp only [magnitude, isNeg_iff], magnitude_toNat v, ?_⟩, by decide⟩
  rw [magnitude_toNat]
  exact natAbs_toInt_le v

/-! ## The digit count -/

/-- Settles O33: the powers of the table are at most 10^19. -/
theorem powersOfTenFit : Obligations.PowersOfTenFit := by
  intro k hk
  refine ⟨rfl, ?_⟩
  calc pow10 k ≤ 10 ^ 19 := Nat.pow_le_pow_right (by decide) hk
    _ < 2 ^ 64 := by decide

/-- Every magnitude is below POW10[19]. -/
theorem lt_of_le_two_pow_63 {m : Nat} (hm : m ≤ 2 ^ 63) : m < 10 ^ 19 := by omega

theorem natAbs_toInt_lt (v : Val) : v.toInt.natAbs < 10 ^ 19 := lt_of_le_two_pow_63 (natAbs_toInt_le v)

/-- The digit count is at least 1 (43_number.md rule R82). -/
theorem digitCount_pos (m : Nat) : 1 ≤ digitCount m := (List.mem_range'_1.1 (digitCount_mem m)).1

section

variable {m : Nat} (hm : m < 10 ^ 19)
include hm

/-- The search of 43_number.md rule R82 ends with a digit count. -/
theorem find?_eq_digitCount : ((List.range' 1 19).find? fun d => decide (m < pow10 d)) = some (digitCount m) := by
  unfold digitCount
  cases hf : (List.range' 1 19).find? fun d => decide (m < pow10 d) with
  | some d => rfl
  | none => exact absurd (List.find?_eq_none.1 hf 19 (by decide)) (not_not_intro (decide_eq_true hm))

/-- The digit count is the least d with `m < 10^d` (43_number.md rule R82). -/
theorem digitCount_le_iff {d : Nat} (hd : 1 ≤ d) : digitCount m ≤ d ↔ m < 10 ^ d := by
  obtain ⟨hlt, -, hleast⟩ := List.find?_range'_eq_some.1 (find?_eq_digitCount hm)
  constructor
  · intro hle
    exact (of_decide_eq_true hlt).trans_le (Nat.pow_le_pow_right (Nat.succ_pos 9) hle)
  · intro hmd
    by_contra hgt
    have hnot := hleast d hd (by omega)
    simp [pow10, hmd] at hnot

/-- The digit count suffices (43_number.md rule R82). -/
theorem lt_pow_digitCount : m < 10 ^ digitCount m := (digitCount_le_iff hm (digitCount_pos m)).1 le_rfl

/-- Every power of ten below the digit count is reached (43_number.md rule R82). -/
theorem lt_digitCount_iff {d : Nat} (hd : 1 ≤ d) : d < digitCount m ↔ 10 ^ d ≤ m := by
  rw [← not_le, digitCount_le_iff hm hd, not_lt]

/-- The chain goes on from d exactly while d is below the digit count, so it ends there when its steps suffice
(43_number.md rule R85). -/
theorem digitChain_eq_digitCount {fuel d : Nat} (hd : 1 ≤ d) (hle : d ≤ digitCount m)
    (hfuel : digitCount m ≤ d + fuel) : digitChain m fuel d = digitCount m := by
  have hcount := List.mem_range'_1.1 (digitCount_mem m)
  induction fuel generalizing d with
  | zero => exact Nat.le_antisymm hle hfuel
  | succ fuel ih =>
    have hguard : (d ≤ 18 ∧ pow10 d ≤ m) ↔ d < digitCount m := by
      rw [pow10, ← lt_digitCount_iff hm hd]
      omega
    simp only [digitChain, hguard]
    split
    · exact ih (by omega) (by omega) (by omega)
    · omega

end

/-- A number below 10 has one digit (43_number.md rule R85). -/
theorem digitCount_of_lt_ten {m : Nat} (h : m < 10) : digitCount m = 1 :=
  Nat.le_antisymm ((digitCount_le_iff (by omega) le_rfl).2 h) (digitCount_pos m)

/-- Settles O34: the digit count is the least d with `m < 10^d`, and the thresholds say where that is k. -/
theorem digitCountIsLeast : Obligations.DigitCountIsLeast := by
  refine ⟨digitCount_of_lt_ten (by decide), fun m hle => ?_⟩
  have hm := lt_of_le_two_pow_63 hle
  have hcount := List.mem_range'_1.1 (digitCount_mem m)
  refine ⟨hcount.1, by omega, lt_pow_digitCount hm, fun d hd => (lt_digitCount_iff hm hd).1, digitCount_of_lt_ten,
    fun k hk _ hlo hhi => ?_⟩
  have hupper := (digitCount_le_iff hm (by omega)).2 hhi
  have hlower := (lt_digitCount_iff hm (by omega)).2 hlo
  omega

/-- Settles O36: the required length is the digit count and the sign slot, and both extremes have 19 digits. -/
theorem requiredLengthBounds : Obligations.RequiredLengthBounds := by
  refine ⟨fun v => ⟨?_, requiredLen_pos v, requiredLen_le v⟩, by decide, by decide⟩
  simp only [requiredLen, magnitude_toNat, isNeg_iff]

/-! ## The digits -/

theorem digit_eq (m j : Nat) : digit m j = m / 10 ^ (digitCount m - 1 - j) % 10 := rfl

theorem digit_lt (m j : Nat) : digit m j < 10 := Nat.mod_lt _ (by decide)

/-- The first digit is what is left above the others: there is no digit before it. -/
theorem digit_zero_eq {m : Nat} (hm : m < 10 ^ 19) : digit m 0 = m / 10 ^ (digitCount m - 1) := by
  refine Nat.mod_eq_of_lt (Nat.div_lt_of_lt_mul ?_)
  rw [pow10, Nat.sub_zero, ← Nat.pow_succ, Nat.succ_eq_add_one, Nat.sub_add_cancel (digitCount_pos m)]
  exact lt_pow_digitCount hm

/-- There is no leading zero but that of 0 (43_number.md rule R84). -/
theorem eq_zero_of_digit_zero {m : Nat} (hm : m < 10 ^ 19) (h : digit m 0 = 0) : m = 0 := by
  rw [digit_zero_eq hm] at h
  have hlt : m < 10 ^ (digitCount m - 1) := (Nat.div_eq_zero_iff_lt (Nat.pow_pos (by decide))).1 h
  by_cases hd : digitCount m = 1
  · simpa [hd] using hlt
  · have hpos := digitCount_pos m
    have := (digitCount_le_iff hm (by omega)).2 hlt
    omega

/-- The n decimal places of a number, most significant first, sum to the number below 10^n. -/
theorem sum_places (m n : Nat) :
    ((List.range n).map fun j => m / 10 ^ (n - 1 - j) % 10 * 10 ^ (n - 1 - j)).sum = m % 10 ^ n := by
  induction n with
  | zero => simp [Nat.mod_one]
  | succ n ih =>
    simp only [Nat.sub_sub, Nat.add_comm 1] at ih
    simp only [List.range_succ_eq_map, List.map_cons, List.map_map, List.sum_cons, Function.comp_def, Nat.succ_eq_add_one,
      Nat.add_sub_cancel, Nat.sub_zero, ih]
    rw [Nat.mod_pow_succ, Nat.add_comm, Nat.mul_comm]

/-- The digits spell the number (43_number.md rule R84). -/
theorem sum_digits {m : Nat} (hm : m < 10 ^ 19) :
    ((List.range (digitCount m)).map fun j => digit m j * 10 ^ (digitCount m - 1 - j)).sum = m := by
  simp only [digit_eq, sum_places]
  exact Nat.mod_eq_of_lt (lt_pow_digitCount hm)

/-- Settles O37: the digits are the decimal places of m, of which the first is not 0. -/
theorem digitsSpellMagnitude : Obligations.DigitsSpellMagnitude := by
  intro m hle
  have hm := lt_of_le_two_pow_63 hle
  exact ⟨fun j _ => ⟨digit_eq m j, Nat.le_of_lt_succ (digit_lt m j)⟩, eq_zero_of_digit_zero hm, sum_digits hm⟩

/-! ## The decimal text -/

@[simp] theorem digitText_length (m : Nat) : (digitText m).length = digitCount m := by simp [digitText]

theorem digitText_getElem? {m j : Nat} (h : j < digitCount m) : (digitText m)[j]? = some (digitChar (digit m j)) := by
  simp [digitText, h]

/-- A number below 10 is its own digit (43_number.md rule R85). -/
theorem digitText_of_lt_ten {m : Nat} (h : m < 10) : digitText m = [digitChar m] := by
  have hdigit : digit m 0 = m := by simp [digit_zero_eq (show m < 10 ^ 19 by omega), digitCount_of_lt_ten h]
  simp [digitText, digitCount_of_lt_ten h, hdigit]

/-- Settles O35: 18 steps of the chain reach every digit count, and a number below 10 is its own digit. -/
theorem comparisonChainCountsDigits : Obligations.ComparisonChainCountsDigits := by
  intro m hle
  have hcount := List.mem_range'_1.1 (digitCount_mem m)
  exact ⟨digitChain_eq_digitCount (lt_of_le_two_pow_63 hle) le_rfl hcount.1 (by omega), digitText_of_lt_ten⟩

theorem digitChar_toNat {k : Nat} (h : k < 10) : (digitChar k).toNat = 0x30 + k := by
  rw [digitChar, BitVec.toNat_ofNat]
  exact Nat.mod_eq_of_lt (by omega)

theorem digitChar_injective {k l : Nat} (hk : k < 10) (hl : l < 10) (h : digitChar k = digitChar l) : k = l := by
  have hnat := congrArg BitVec.toNat h
  rw [digitChar_toNat hk, digitChar_toNat hl] at hnat
  omega

/-- The digits determine the number: they are as many, and each is the same. -/
theorem digitText_injective {m m' : Nat} (hm : m < 10 ^ 19) (hm' : m' < 10 ^ 19) (h : digitText m = digitText m') :
    m = m' := by
  have hcount : digitCount m = digitCount m' := by simpa only [digitText_length] using congrArg List.length h
  have hdigit : ∀ j, j < digitCount m → digit m j = digit m' j := fun j hj =>
    digitChar_injective (digit_lt m j) (digit_lt m' j) <| Option.some.inj <| by
      rw [← digitText_getElem? hj, h, digitText_getElem? (hcount ▸ hj)]
  calc m = ((List.range (digitCount m)).map fun j => digit m j * 10 ^ (digitCount m - 1 - j)).sum := (sum_digits hm).symm
    _ = ((List.range (digitCount m')).map fun j => digit m' j * 10 ^ (digitCount m' - 1 - j)).sum := by
      rw [← hcount]
      exact congrArg List.sum (List.map_congr_left fun j hj => by rw [hdigit j (List.mem_range.1 hj)])
    _ = m' := sum_digits hm'

/-- The sign is no digit. -/
theorem minusChar_not_mem_digitText (m : Nat) : minusChar ∉ digitText m := by
  intro h
  obtain ⟨j, -, hj⟩ := List.mem_map.1 h
  have hnat := congrArg BitVec.toNat hj
  rw [digitChar_toNat (digit_lt m j)] at hnat
  exact absurd hnat (by simp only [minusChar, BitVec.toNat_ofNat]; omega)

/-! The text of an operand of each sign (43_number.md rule R86). -/

theorem numText_of_neg {v : Val} (h : v.toInt < 0) : numText v = minusChar :: digitText v.toInt.natAbs := by
  simp [numText, (isNeg_iff v).2 h, magnitude_toNat]

theorem numText_of_nonneg {v : Val} (h : 0 ≤ v.toInt) : numText v = digitText v.toInt.natAbs := by
  have hneg : isNeg v = false := by simpa [← not_lt, ← isNeg_iff] using h
  simp [numText, hneg, magnitude_toNat]

/-- The text has the sign exactly for a negative operand. -/
theorem minusChar_mem_numText (v : Val) : minusChar ∈ numText v ↔ v.toInt < 0 := by
  rcases lt_or_ge v.toInt 0 with hv | hv
  · simp [numText_of_neg hv, hv]
  · simp [numText_of_nonneg hv, minusChar_not_mem_digitText, hv]

/-- Settles O38: the text tells the sign and, after it, the magnitude. -/
theorem decimalTextDeterminesOperand : Obligations.DecimalTextDeterminesOperand := by
  intro v v' h
  have hsign : v.toInt < 0 ↔ v'.toInt < 0 := by rw [← minusChar_mem_numText, h, minusChar_mem_numText]
  have hdigits : digitText v.toInt.natAbs = digitText v'.toInt.natAbs := by
    rcases lt_or_ge v.toInt 0 with hv | hv
    · rw [numText_of_neg hv, numText_of_neg (hsign.1 hv)] at h
      exact (List.cons.inj h).2
    · rwa [numText_of_nonneg hv, numText_of_nonneg (by omega)] at h
  have habs := digitText_injective (natAbs_toInt_lt v) (natAbs_toInt_lt v') hdigits
  exact BitVec.eq_of_toInt_eq (by omega)

/-! ## What CONVNUM answers -/

/-- Settles O40: each failure test ends CONVNUM when the tests before it have passed. -/
theorem convnumFailureOrder : Obligations.ConvnumFailureOrder := by
  intro s cap v
  refine ⟨rfl, rfl, fun hcap hlt => ?_⟩
  change execConvnum true cap v s = .next (s.respond s.outBuf (rspOk false) .bufferTooSmall)
  simp [execConvnum, hcap, hlt]

/-- Settles O41: CONVNUM is rejected by its tests and then writes nothing, or it has written its text. -/
theorem convnumAllOrNothing : Obligations.ConvnumAllOrNothing := by
  intro s t outp cap v h
  have hind := (exec_changedBelow h).indices
  rw [exec_convnum] at h
  rcases convnum_tests outp cap v with hrej | ⟨rfl, hcap⟩
  · obtain ⟨c, hc⟩ := execConvnum_rejected hrej
    rw [hc] at h
    cases h
    refine ⟨iff_of_false (fun hok => absurd (Option.some.inj hok) (by decide)) ?_, fun _ => ⟨rfl, rfl⟩, ⟨rfl, hind⟩,
      fun _ _ => rfl⟩
    rintro ⟨rfl, hle⟩
    rcases hrej with hout | hlt
    · cases hout
    · omega
  · cases hw : writeText s (numText v) 0 s.outBuf with
    | error f =>
      rw [execConvnum_fault hcap hw] at h
      cases h
    | ok out =>
      rw [execConvnum_ok hcap hw] at h
      cases h
      have hbelow := writeText_changedBelow hw
      rw [numText_length, Nat.zero_add] at hbelow
      exact ⟨iff_of_true rfl ⟨rfl, hcap⟩, fun hok => absurd rfl hok, ⟨rfl, hind⟩, hbelow.above⟩

section

variable {s : State} (hs : s.Sound)
include hs

/-- With a slot for each character, a sound state writes the glyphs of an operand's text and changes no slot after them
(43_number.md rule R86). -/
theorem State.Sound.writeText_numText {v : Val} (ho : s.outBuf.Covers (requiredLen v)) :
    ∃ out, writeText s (numText v) 0 s.outBuf = .ok out ∧
      (∀ j c, (numText v)[j]? = some c → out.read j = some (glyphOf s.cfg c)) ∧
      s.outBuf.ChangedBelow (requiredLen v) out := by
  obtain ⟨out, hw⟩ := writeText_supported (i := 0) (hs.numText_supported v) fun j _ hj =>
    ho j (by simpa only [numText_length, Nat.zero_add] using hj)
  obtain ⟨-, hwritten, -⟩ := writeText_ok hw
  refine ⟨out, hw, fun j c hj => ?_, by simpa using writeText_changedBelow hw⟩
  obtain ⟨g, hr, hg, hread⟩ := hwritten j c hj
  rw [← hs.provide_eq hr, hg, ← hread, Nat.zero_add]

/-- The text of an operand is written alike under every legal configuration with the same GLYPH, as its characters are in
every range (43_number.md rule R88). -/
theorem State.Sound.writeText_numText_reconfigure {cfg : Cfg} (hl : cfgLegal cfg = true) (hg : cfg.glyph = s.cfg.glyph)
    (v : Val) (i : Nat) (out : Memory) :
    writeText (s.reconfigure cfg) (numText v) i out = writeText s (numText v) i out := by
  refine writeText_congr (fun c hc i out => ?_) i out
  have hr := inRange_of_mem_numText hc
  have hprov : provide cfg (romOf cfg) c = provide s.cfg s.rom c := by
    rw [provide_inRange hl (hr _), hs.provide_eq (hr _), glyphOf, glyphOf, hg]
  simp only [convertInto, State.reconfigure_cfg, State.reconfigure_rom, hr, hprov]

/-- CONVNUM has the same outcome under every legal configuration with the same GLYPH (43_number.md rule R88). -/
theorem State.Sound.execConvnum_reconfigure {cfg : Cfg} (hl : cfgLegal cfg = true) (hg : cfg.glyph = s.cfg.glyph)
    (outp : Bool) (cap : Len) (v : Val) :
    execConvnum outp cap v (s.reconfigure cfg) = reconfigureOutcome cfg (execConvnum outp cap v s) := by
  rcases convnum_tests outp cap v with hrej | ⟨rfl, hcap⟩
  · obtain ⟨c, hc⟩ := execConvnum_rejected hrej
    rw [hc, hc]
    rfl
  · have htext := hs.writeText_numText_reconfigure hl hg v 0 s.outBuf
    cases hw : writeText s (numText v) 0 s.outBuf with
    | error f =>
      rw [execConvnum_fault hcap hw, execConvnum_fault hcap (htext.trans hw)]
      rfl
    | ok out =>
      rw [execConvnum_ok hcap hw, execConvnum_ok hcap (htext.trans hw)]
      rfl

end

/-- Settles O39: the slots hold the glyphs of the operand's text, the sign and the digits. -/
theorem convnumWritesDecimalText : Obligations.ConvnumWritesDecimalText := by
  intro s cap v hs hcap ho
  obtain ⟨out, hw, hread, hbelow⟩ := hs.writeText_numText ho
  refine ⟨_, execConvnum_ok hcap hw, ⟨rfl, hbelow.indices⟩, rfl, rfl, fun hv j hj => ?_,
    fun hv => ⟨hread 0 _ (by rw [numText_of_neg hv]; rfl), fun j hj => ?_⟩, hbelow.above⟩
  · rw [← numText_length, numText_of_nonneg hv, digitText_length] at hj
    refine hread j _ ?_
    rw [numText_of_nonneg hv]
    exact digitText_getElem? hj
  · rw [← numText_length, numText_of_neg hv, List.length_cons, digitText_length, Nat.add_lt_add_iff_right] at hj
    refine hread (j + 1) _ ?_
    rw [numText_of_neg hv, List.getElem?_cons_succ]
    exact digitText_getElem? hj

/-- Settles O43: the operand's text is written alike under both configurations. -/
theorem convnumIndependentOfRange : Obligations.ConvnumIndependentOfRange := by
  intro s cfg outp cap v hs hl hg
  have h := hs.execConvnum_reconfigure hl hg outp cap v
  simp only [exec_convnum]
  cases hx : execConvnum outp cap v s <;> rw [hx] at h <;> exact h

end Sys2Proof.Machine

/-! PROOFS. 60_exceptions.md: the faults (rules R91 and R92) and the configurations that elaboration refuses (rule R94). -/

namespace Sys2Proof.Machine

/-! ## Illegal configurations -/

/-- H is injective with range [0,6) on the six error glyphs, index by index (40_table_provider.md rule R68). -/
theorem errIndexAdmissible_iff_bounds (h : ErrIndex) :
    errIndexAdmissible h = true ↔
      (errIndices h).Nodup ∧ h.upperE < 6 ∧ h.lowerE < 6 ∧ h.upperR < 6 ∧ h.lowerR < 6 ∧ h.upperO < 6 ∧
        h.lowerO < 6 := by
  rw [errIndexAdmissible_iff]
  simp [errIndices]

/-- An illegal configuration breaks one of the three rules of 60_exceptions.md rule R94. -/
theorem cfgLegal_eq_false_iff (cfg : Cfg) :
    cfgLegal cfg = false ↔
      (cfg.range = .full ∧ cfg.strategy = .computed) ∨ ¬ glyphAdmissible cfg.glyph = true ∨
        ¬ errIndexAdmissible cfg.errIndex = true := by
  rw [← Bool.not_eq_true, cfgLegal_iff, not_and_or, not_not, not_and_or]

/-- Elaboration refuses the illegal configurations and no other. -/
theorem elaborate_refused_iff (cfg : Cfg) :
    (State.elaborate cfg).refused = some .illegalConfig ↔ cfgLegal cfg = false := by
  cases h : cfgLegal cfg <;> simp [State.elaborate, h]

/-- Settles O11: elaboration refuses what is not legal, and a refused instance takes its refusal again at every request. -/
theorem illegalConfigurationsRefused : Obligations.IllegalConfigurationsRefused := by
  refine ⟨fun cfg => ?_, fun s q d hs => ?_⟩
  · rw [elaborate_refused_iff, cfgLegal_eq_false_iff, glyphAdmissible_iff, errIndexAdmissible_iff_bounds]
    rfl
  · rw [transact_illegal hs]
    exact ⟨rfl, rfl, rfl, rfl, by simp [hs]⟩

/-! ## What an operation that faults has met -/

section

variable {s : State} {f : Fault}

/-- A CONVCHAR that faults has done so in its conversion. -/
theorem execConvchar_fault_cases {outp : Bool} {ch : Byte} (h : execConvchar outp ch s = .fault f) :
    convertInto s ch 0 s.outBuf = .error f := by
  cases outp with
  | false => cases h
  | true =>
    cases hc : convertInto s ch 0 s.outBuf with
    | error g =>
      rw [execConvchar_fault hc] at h
      cases h
      rfl
    | ok p =>
      rw [execConvchar_ok hc] at h
      cases h

/-- A CONVWORD that faults has done so in its scan. -/
theorem execConvword_fault_cases {outp inp leng : Bool} {n : Len} (h : execConvword outp inp leng n s = .fault f) :
    scanWord s (wordBound s.cfg leng n) 0 s.outBuf = .error f := by
  cases hp : inp && outp with
  | false =>
    rw [execConvword_absent hp] at h
    cases h
  | true =>
    obtain ⟨rfl, rfl⟩ := Bool.and_eq_true_iff.1 hp
    cases ho : s.overlap with
    | true =>
      rw [execConvword_overlap ho] at h
      cases h
    | false =>
      cases he : scanWord s (wordBound s.cfg leng n) 0 s.outBuf with
      | error g =>
        rw [execConvword_fault ho he] at h
        cases h
        rfl
      | ok e =>
        rw [execConvword_ok ho he] at h
        cases h

/-- A CONVNUM that faults has done so in writing its text. -/
theorem execConvnum_fault_cases {outp : Bool} {cap : Len} {v : Val} (h : execConvnum outp cap v s = .fault f) :
    writeText s (numText v) 0 s.outBuf = .error f := by
  rcases convnum_tests outp cap v with hrej | ⟨rfl, hcap⟩
  · obtain ⟨c, hc⟩ := execConvnum_rejected hrej
    rw [hc] at h
    cases h
  · cases hw : writeText s (numText v) 0 s.outBuf with
    | error g =>
      rw [execConvnum_fault hcap hw] at h
      cases h
      rfl
    | ok out =>
      rw [execConvnum_ok hcap hw] at h
      cases h

end

/-! ## The faults of a sound instance -/

section

variable {s : State} (hs : s.Sound) {f : Fault}
include hs

/-- A conversion fails at a missing slot, and for no other reason. -/
theorem State.Sound.convertInto_error {c : Byte} {i : Nat} {out : Memory} (h : convertInto s c i out = .error f) :
    f = .outOfBuffer := by
  cases ho : out.read i with
  | none =>
    rw [hs.convertInto_missing ho] at h
    cases h
    rfl
  | some v =>
    obtain ⟨out', b, hok⟩ := hs.convertInto_exists (c := c) (Option.isSome_iff_exists.2 ⟨v, ho⟩)
    rw [hok] at h
    cases h

/-- A scan fails where IN has no character, or at a conversion. -/
theorem State.Sound.scanWord_error {k i : Nat} {out : Memory} (h : scanWord s k i out = .error f) :
    f = .outOfBuffer := by
  induction k generalizing i out with
  | zero => cases h
  | succ k ih =>
    rw [scanWord] at h
    split at h
    · cases h
      rfl
    · split at h
      · cases h
      · split at h
        next hc =>
          cases h
          exact hs.convertInto_error hc
        · cases h
        · exact ih h

/-- The characters of a text in range convert, so writing it fails at a missing slot alone (43_number.md rule R86). -/
theorem State.Sound.writeText_error {text : List Byte} (hr : ∀ c ∈ text, inRange s.cfg.range c = true) {i : Nat}
    {out : Memory} (h : writeText s text i out = .error f) : f = .outOfBuffer := by
  induction text generalizing i out with
  | nil => cases h
  | cons c text ih =>
    rw [List.forall_mem_cons] at hr
    rw [writeText] at h
    split at h
    next hc =>
      cases h
      exact hs.convertInto_error hc
    · exact ih hr.2 h
    next hc =>
      obtain ⟨-, -, hout, -⟩ := convertInto_ok hc
      simp [hr.1] at hout

/-- An operation of a sound instance that faults has accessed a caller buffer past its end (60_exceptions.md rule R92). -/
theorem State.Sound.exec_fault {i : Instr} (h : exec i s = .fault f) : f = .outOfBuffer := by
  cases i with
  | validate ch => cases h
  | convchar outp ch => exact hs.convertInto_error (execConvchar_fault_cases h)
  | convword outp inp leng n => exact hs.scanWord_error (execConvword_fault_cases h)
  | convnum outp cap v =>
    exact hs.writeText_error (fun _ hc => inRange_of_mem_numText hc s.cfg.range) (execConvnum_fault_cases h)

end

/-- Settles O48: the one fault left is `outOfBuffer`. -/
theorem internalInvariantUnreachable : Obligations.InternalInvariantUnreachable := by
  intro i s hs h
  cases hs.exec_fault h

/-! ## Taking a fault -/

@[simp] theorem refuseSecond_faulted (d : Interference) (s : State) : (refuseSecond d s).faulted = s.faulted := by
  rw [refuseSecond_eq]

/-- The end of a faulting transaction: the fault is taken, and a second request adds its refusal (assumption entry 11). -/
theorem transact_fault {q : Req} {d : Interference} {s : State} {i : Instr} {f : Fault}
    (hs : s.refused ≠ some .illegalConfig) (ha : d ≠ .agentAccess) (hr : d ≠ .resetArrives) (hq : decode q = .ok i)
    (hf : exec i s = .fault f) : transact q d s = refuseSecond d (s.takeFault f (footprint s.cfg i)) := by
  rw [transact_ok hs hq, runRequest, if_neg ha, hf, conclude, if_neg hr]

/-- Settles O56: taking a fault sets the mark and frees slots below the footprint alone, and every action keeps the mark. -/
theorem faultIsRecorded : Obligations.FaultIsRecorded := by
  intro s q d i f hs ha hr hq hf
  have hend := transact_fault hs ha hr hq hf
  have hmark : (transact q d s).faulted = s.faulted.or (some f) := by simp [hend]
  have hset : (transact q d s).faulted.isSome = true := by simp [hmark]
  refine ⟨by simp [hend], hset, fun hnone => by simp [hmark, hnone], fun a hle => ?_, by simp [hend],
    fun e => (keepsMarks_handleEvent e _).faulted hset⟩
  simp [hend, Memory.read_havoc, Nat.not_lt.2 hle]

end Sys2Proof.Machine

/-! PROOFS. 70_reset_and_hazards.md: a reset between transactions and during one (rules R109 and R110), the binding of the buffers
(rule R111), and the hazards a request is refused for (rules R113 to R115). -/

namespace Sys2Proof.Machine

/-! ## A binding -/

/-- The buffer numbered from `k` on holds the bytes in their order. -/
theorem Memory.read_zip_range' (bs : List Byte) (k i : Nat) :
    Memory.read ((List.range' k bs.length).zip bs) (k + i) = bs[i]? := by
  induction bs generalizing k i with
  | nil => rfl
  | cons b bs ih =>
    rw [List.length_cons, List.range'_succ, List.zip_cons_cons, Memory.read_cons]
    cases i with
    | zero => simp
    | succ i =>
      rw [if_neg (by omega), List.getElem?_cons_succ, ← ih (k + 1) i, Nat.add_right_comm, Nat.add_assoc]

/-- A bound buffer holds its bytes, index 0 first, and nothing past the last (20_memory.md rule R24). -/
@[simp] theorem Memory.read_ofBytes (bs : List Byte) (i : Nat) : (Memory.ofBytes bs).read i = bs[i]? := by
  rw [Memory.ofBytes, List.range_eq_range', ← Memory.read_zip_range' bs 0 i, Nat.zero_add]

/-- Settles O60: the step is the binding, which replaces the buffers and their overlap alone. -/
theorem boundBuffersHoldTheirBytes : Obligations.BoundBuffersHoldTheirBytes := by
  intro s xs ys o rest hp
  refine ⟨_, step_eq s, ?_⟩
  rw [nextState_event hp, handleEvent_bind]
  exact ⟨rfl, rfl, rfl, rfl, rfl, rfl, fun i => ⟨Memory.read_ofBytes xs i, Memory.read_ofBytes ys i⟩⟩

/-! ## A reset between transactions -/

/-- A scan reads nothing that a reset clears. -/
@[simp] theorem scanWord_onReset (s : State) (k i : Nat) (out : Memory) :
    scanWord s.onReset k i out = scanWord s k i out :=
  scanWord_congr (s := s.onReset) (t := s) rfl (fun _ _ _ => rfl) k i out

@[simp] theorem writeText_onReset (s : State) (text : List Byte) (i : Nat) (out : Memory) :
    writeText s.onReset text i out = writeText s text i out :=
  writeText_congr (s := s.onReset) (t := s) (fun _ _ _ _ => rfl) i out

/-- No operation reads the last response or its class, and an answer replaces both: it has the same next state, not just the
same outputs (10_state.md rule R15). -/
@[simp] theorem exec_onReset (i : Instr) (s : State) : exec i s.onReset = exec i s := by
  cases i with
  | validate ch => rfl
  | convchar outp ch => rfl
  | convword outp inp leng n =>
    rw [exec_convword, exec_convword, execConvword, State.onReset_cfg, State.onReset_outBuf, scanWord_onReset]
    rfl
  | convnum outp cap v =>
    rw [exec_convnum, exec_convnum, execConvnum, State.onReset_outBuf, writeText_onReset]
    rfl

/-- Every other end of a transaction replaces the last response and its class too. -/
theorem runRequest_onReset (i : Instr) (d : Interference) (s : State) :
    runRequest i d s.onReset = runRequest i d s := by
  rw [runRequest, runRequest, exec_onReset]
  cases exec i s <;> rfl

/-- A request ends in the same state after a reset as without it (70_reset_and_hazards.md rule R109). -/
theorem transact_onReset (q : Req) (d : Interference) (s : State) : transact q d s.onReset = transact q d s := by
  by_cases hs : s.refused = some .illegalConfig
  · rw [transact_illegal hs, transact_illegal (s := s.onReset) hs]
    rfl
  · cases hq : decode q with
    | error e =>
      cases e
      rw [transact_reserved hs hq, transact_reserved (s := s.onReset) hs hq]
      rfl
    | ok i => rw [transact_ok hs hq, transact_ok (s := s.onReset) hs hq, runRequest_onReset]

/-- Settles O54: the step clears the last response and its class, and no request ends differently for it. -/
theorem resetChangesNoArchitecturalState : Obligations.ResetChangesNoArchitecturalState := by
  intro s rest hp
  refine ⟨_, step_eq s, ?_⟩
  rw [nextState_event hp, handleEvent_reset]
  exact ⟨rfl, rfl, rfl, rfl, rfl, rfl, rfl, rfl, fun q d => by simp only [transact_onReset, and_self]⟩

/-! ## A reset during a transaction -/

/-- A reset that meets a transaction which is not refused abandons it (70_reset_and_hazards.md rule R110). -/
theorem transact_resetArrives {q : Req} {s : State} {i : Instr} (hs : s.refused ≠ some .illegalConfig)
    (hq : decode q = .ok i) (hx : ∀ r, exec i s ≠ .refused r) :
    transact q .resetArrives s = s.abandon (footprint s.cfg i) := by
  rw [transact_ok hs hq, runRequest_resetArrives hx]

theorem footprint_convword_absent {outp inp : Bool} (h : outp = false ∨ inp = false) (cfg : Cfg) (leng : Bool) (n : Len) :
    footprint cfg (.convword outp inp leng n) = 0 := by
  rcases h with rfl | rfl <;> simp [footprint]

/-- Settles O55: abandoning a transaction frees slots below its footprint alone and sets no mark. -/
theorem resetDuringTransaction : Obligations.ResetDuringTransaction := by
  refine ⟨fun s q i hs hq hx => ?_, fun cfg c outp inp leng n cap v =>
    ⟨rfl, rfl, rfl, rfl, fun h => footprint_convword_absent h cfg leng n, rfl, rfl⟩⟩
  rw [transact_resetArrives hs hq hx]
  refine ⟨rfl, rfl, rfl, rfl, rfl, rfl, Memory.isSome_of_indices (Memory.havoc_indices _ _ _), fun a hle => ?_⟩
  rw [State.abandon_outBuf, Memory.read_havoc, if_neg (Nat.not_lt.2 hle)]

/-! ## A second request and another agent -/

/-- Another agent's access refuses the transaction it disturbs (70_reset_and_hazards.md rule R114; assumption entry 18). -/
theorem transact_agentAccess {q : Req} {s : State} {i : Instr} (hs : s.refused ≠ some .illegalConfig)
    (hq : decode q = .ok i) : transact q .agentAccess s = s.takeRefusal .concurrentAccess := by
  rw [transact_ok hs hq, runRequest, if_pos rfl]

/-- A second request adds the refusal mark to the transaction it meets, which ends as if undisturbed
(70_reset_and_hazards.md rule R113; assumption entry 11). -/
theorem transact_secondRequest {q : Req} {s : State} {i : Instr} (hs : s.refused ≠ some .illegalConfig)
    (hq : decode q = .ok i) :
    transact q .secondRequest s = (transact q .undisturbed s).markRefused .concurrentAccess := by
  rw [transact_ok hs hq, transact_ok hs hq, runRequest_undisturbed]
  change (conclude i .secondRequest s (exec i s)).markRefused _ = _
  cases exec i s <;> rfl

/-- Settles O59: the one disturbance is a refusal and nothing else, the other adds the refusal mark and nothing else. -/
theorem concurrentAccessRefused : Obligations.ConcurrentAccessRefused := by
  refine ⟨fun s q i hnone hq => ?_, fun s q i hnone hq => ?_⟩
  · rw [transact_agentAccess (by simp [hnone]) hq]
    exact ⟨by simp [hnone], rfl, rfl, rfl⟩
  · rw [transact_secondRequest (by simp [hnone]) hq]
    exact ⟨by simp, rfl, rfl⟩

/-! ## Overlapping buffers -/

theorem execConvchar_not_refused (outp : Bool) (ch : Byte) (s : State) (r : Refusal) :
    execConvchar outp ch s ≠ .refused r := by
  cases outp with
  | false => nofun
  | true =>
    cases hc : convertInto s ch 0 s.outBuf with
    | error f => simp [execConvchar_fault hc]
    | ok p => simp [execConvchar_ok hc]

theorem execConvnum_not_refused (outp : Bool) (cap : Len) (v : Val) (s : State) (r : Refusal) :
    execConvnum outp cap v s ≠ .refused r := by
  rcases convnum_tests outp cap v with hrej | ⟨rfl, hcap⟩
  · obtain ⟨c, hc⟩ := execConvnum_rejected hrej
    simp [hc]
  · cases hw : writeText s (numText v) 0 s.outBuf with
    | error f => simp [execConvnum_fault hcap hw]
    | ok out => simp [execConvnum_ok hcap hw]

/-- A CONVWORD that is refused has both buffers, and they overlap. -/
theorem execConvword_refused_cases {outp inp leng : Bool} {n : Len} {s : State} {r : Refusal}
    (h : execConvword outp inp leng n s = .refused r) :
    inp = true ∧ outp = true ∧ s.overlap = true ∧ r = .bufferOverlap := by
  cases hp : inp && outp with
  | false => simp [execConvword_absent hp] at h
  | true =>
    obtain ⟨rfl, rfl⟩ := Bool.and_eq_true_iff.1 hp
    cases ho : s.overlap with
    | true =>
      rw [execConvword_overlap ho] at h
      cases h
      exact ⟨rfl, rfl, rfl, rfl⟩
    | false =>
      cases he : scanWord s (wordBound s.cfg leng n) 0 s.outBuf with
      | error f => simp [execConvword_fault ho he] at h
      | ok e => simp [execConvword_ok ho he] at h

/-- Settles O31: the overlap is tested before the scan, and no other operation has a refusal. -/
theorem overlapRefusedForConvwordOnly : Obligations.OverlapRefusedForConvwordOnly := by
  refine ⟨fun s leng n ho => execConvword_overlap ho leng n, fun i s r h => ?_⟩
  cases i with
  | validate ch => cases h
  | convchar outp ch => exact absurd h (execConvchar_not_refused outp ch s r)
  | convword outp inp leng n =>
    obtain ⟨rfl, rfl, ho, rfl⟩ := execConvword_refused_cases h
    exact ⟨rfl, ho, leng, n, rfl⟩
  | convnum outp cap v => exact absurd h (execConvnum_not_refused outp cap v s r)

end Sys2Proof.Machine

/-! PROOFS. 30_encoding.md: the encoder and the decoder are inverse on well-formed requests (rules R48, R50 and R56), and the
assembler writes exactly those (rule R56). -/

namespace Sys2Proof

/-! ## Decoding what was encoded -/

/-- The one check of well-formedness: without an explicit bound N is 0 (30_encoding.md rule R56). -/
theorem wellFormed_convword_iff {outp inp leng : Bool} {n : Len} :
    (Instr.convword outp inp leng n).WellFormed ↔ (leng = false → n = 0#16) := by
  cases leng <;> simp [Instr.WellFormed, Instr.wellFormed]

/-- The decoder reads every field an operation uses back from its place, and N of a CONVWORD without a bound as the 0 that the
encoder wrote. -/
theorem decode_encode {i : Instr} (h : i.WellFormed) : decode (encode i) = .ok i := by
  cases i with
  | validate ch =>
    obtain ⟨hr, ho⟩ := Laws.Header.validate ch
    rw [decode_validate hr ho]
    simp [encode]
  | convchar outp ch =>
    obtain ⟨hr, ho⟩ := Laws.Header.convchar outp ch
    rw [decode_convchar hr ho]
    simp [encode]
  | convword outp inp leng n =>
    obtain ⟨hr, ho⟩ := Laws.Header.convword outp inp leng n
    have hn : (if leng then n else 0#16) = n := by
      cases leng with
      | true => rfl
      | false => exact (wellFormed_convword_iff.1 h rfl).symm
    rw [decode_convword hr ho]
    simp [encode, hn]
  | convnum outp cap val =>
    obtain ⟨hr, ho⟩ := Laws.Header.convnum outp cap val
    rw [decode_convnum hr ho]
    simp [encode]

/-- Settles O1: each operation's fields are read back from their places. -/
theorem decodeEncodeRoundTrip : Obligations.DecodeEncodeRoundTrip :=
  fun _ h => decode_encode h

/-- The decoder gives no CONVWORD with an N that its LENG does not announce (30_encoding.md rule R50; assumption entry 15). -/
theorem wellFormed_of_decode {q : Req} {i : Instr} (h : decode q = .ok i) : i.WellFormed := by
  by_cases hr : Req.reserved q = 0#3
  · rcases Machine.op_cases (Req.op q) with ho | ho | ho | ho
    · rw [decode_validate hr ho] at h
      cases h
      rfl
    · rw [decode_convchar hr ho] at h
      cases h
      rfl
    · rw [decode_convword hr ho] at h
      cases h
      exact wellFormed_convword_iff.2 fun hl => by simp [hl]
    · rw [decode_convnum hr ho] at h
      cases h
      rfl
  · rw [decode_reserved hr] at h
    cases h

/-- Settles O2: what is decoded is well formed, so the round trip applies to it. -/
theorem decodedRequestsAreWellFormed : Obligations.DecodedRequestsAreWellFormed :=
  fun _ _ h => ⟨wellFormed_of_decode h, decode_encode (wellFormed_of_decode h)⟩

/-- Settles O6: each word is evaluated. -/
theorem knownRequestWords : Obligations.KnownRequestWords :=
  ⟨rfl, rfl, rfl, rfl, rfl, rfl, rfl, rfl, rfl⟩

end Sys2Proof

namespace Sys2Proof.Machine

/-! ## The assembler -/

/-- Every line the assembler accepts is well formed: `DEFAULT` is the only way to write LENG = 0, and it writes N = 0. -/
theorem wellFormed_of_assemble {m : Mnemonic} {ops : List Operand} {i : Instr} (h : assemble m ops = some i) :
    i.WellFormed := by
  unfold assemble at h
  split at h
  next =>
    cases h
    rfl
  next =>
    obtain ⟨outp, -, rfl⟩ := Option.map_eq_some_iff.1 h
    rfl
  next =>
    obtain ⟨inp, -, h⟩ := Option.bind_eq_some_iff.1 h
    obtain ⟨outp, -, rfl⟩ := Option.map_eq_some_iff.1 h
    rfl
  next =>
    obtain ⟨inp, -, h⟩ := Option.bind_eq_some_iff.1 h
    obtain ⟨n, -, h⟩ := Option.bind_eq_some_iff.1 h
    obtain ⟨outp, -, rfl⟩ := Option.map_eq_some_iff.1 h
    rfl
  next =>
    obtain ⟨val, -, h⟩ := Option.bind_eq_some_iff.1 h
    obtain ⟨outp, -, h⟩ := Option.bind_eq_some_iff.1 h
    obtain ⟨cap, -, rfl⟩ := Option.map_eq_some_iff.1 h
    rfl
  next => cases h

/-- The operand that writes the presence of OUT. -/
def outOperand (outp : Bool) : Operand := if outp then .out else .null

/-- The operand that writes the presence of IN. -/
def inOperand (inp : Bool) : Operand := if inp then .inp else .null

/-- The operand that writes the bound of a CONVWORD. -/
def lenOperand (leng : Bool) (n : Len) : Operand := if leng then .num n.toNat else .default

@[simp] theorem asmOut_outOperand (outp : Bool) : asmOut (outOperand outp) = some outp := by cases outp <;> rfl

@[simp] theorem asmIn_inOperand (inp : Bool) : asmIn (inOperand inp) = some inp := by cases inp <;> rfl

/-- Every length is written as its decimal number. -/
@[simp] theorem asmLen_toNat (n : Len) : asmLen n.toNat = some n := by
  have hn := n.isLt
  simp only [asmLen, BitVec.ofInt_natCast, BitVec.ofNat_toNat, BitVec.setWidth_eq]
  exact if_pos (by omega)

/-- Every operand of CONVNUM is written as its signed decimal number. -/
@[simp] theorem asmVal_toInt (v : Val) : asmVal v.toInt = some v := by
  have hlo := BitVec.le_toInt v
  have hhi := BitVec.toInt_lt (x := v)
  rw [asmVal, BitVec.ofInt_toInt]
  exact if_pos (by omega)

/-- The mnemonic of a request. -/
def mnemonicOf : Instr → Mnemonic
  | .validate _ => .validate
  | .convchar _ _ => .convchar
  | .convword _ _ _ _ => .convword
  | .convnum _ _ _ => .convnum

/-- The operands of a request, in the order of its line (30_encoding.md rule R56). -/
def operandsOf : Instr → List Operand
  | .validate ch => [.char ch]
  | .convchar outp ch => [.char ch, outOperand outp]
  | .convword outp inp leng n => [inOperand inp, lenOperand leng n, outOperand outp]
  | .convnum outp cap val => [.num val.toInt, outOperand outp, .num cap.toNat]

/-- A well-formed request is the one its own line stands for. -/
theorem assemble_operandsOf {i : Instr} (h : i.WellFormed) : assemble (mnemonicOf i) (operandsOf i) = some i := by
  cases i with
  | validate ch => rfl
  | convchar outp ch => simp [mnemonicOf, operandsOf, assemble]
  | convword outp inp leng n =>
    cases leng with
    | true => simp [mnemonicOf, operandsOf, assemble, lenOperand]
    | false =>
      obtain rfl := wellFormed_convword_iff.1 h rfl
      simp [mnemonicOf, operandsOf, assemble, lenOperand]
  | convnum outp cap val => simp [mnemonicOf, operandsOf, assemble]

/-- Settles O8: a line gives a well-formed request, and each one has its line. -/
theorem assemblyCoversWellFormedRequests : Obligations.AssemblyCoversWellFormedRequests :=
  ⟨fun _ _ _ h => ⟨wellFormed_of_assemble h, decode_encode (wellFormed_of_assemble h)⟩,
    fun i h => ⟨mnemonicOf i, operandsOf i, assemble_operandsOf h⟩⟩

end Sys2Proof.Machine

/-! PROOFS. 10_state.md: the invariant that every step keeps (rules R17, R18 and R24), and the state after reset (rule R23). -/

namespace Sys2Proof.Machine

/-! ## The invariant along a step -/

/-- The invariant depends on what the caller has bound and, for an illegal configuration, on the refusal mark. -/
theorem State.Inv.of_keepsBinding {s t : State} (h : s.Inv) (hkeep : s.KeepsBinding t)
    (hrefused : s.refused = some .illegalConfig → t.refused = some .illegalConfig) : t.Inv where
  inWf := by rw [hkeep.inBuf, h.inWf]
  outWf := Memory.wf_of_indices hkeep.outIndices h.outWf
  romEq := by rw [hkeep.rom, hkeep.cfg, h.romEq]
  legal := by
    rw [hkeep.cfg]
    exact h.legal.imp_right hrefused

/-- An instance refused at elaboration stays refused for that reason (60_exceptions.md rule R94). -/
theorem transact_refused_illegal {s : State} (h : s.refused = some .illegalConfig) (q : Req) (d : Interference) :
    (transact q d s).refused = some .illegalConfig := by
  simp [transact_illegal h, h]

/-- A binding brings buffers in canonical form; a request and a reset keep the ones there are. -/
theorem State.Inv.handleEvent {s : State} (h : s.Inv) (e : Event) : (handleEvent e s).Inv := by
  cases e with
  | bind xs ys o => exact ⟨Memory.ofBytes_wf xs, Memory.ofBytes_wf ys, h.romEq, h.legal⟩
  | request q d => exact h.of_keepsBinding (keepsBinding_transact q d s) fun hr => transact_refused_illegal hr q d
  | reset => exact ⟨h.inWf, h.outWf, h.romEq, h.legal⟩

theorem State.Inv.nextState {s : State} (h : s.Inv) : (nextState s).Inv := by
  cases hp : s.pending with
  | nil => rwa [nextState_idle hp]
  | cons e rest =>
    rw [nextState_event hp]
    have htaken : State.Inv { s with pending := rest } := ⟨h.inWf, h.outWf, h.romEq, h.legal⟩
    exact htaken.handleEvent e

/-- Settles O51: a step takes one action of the outside, and each action keeps the invariant. -/
theorem stepKeepsInvariant : Obligations.StepKeepsInvariant := by
  intro s t h hstep
  cases hstep
  exact h.nextState

/-! ## The state after reset -/

/-- The instance of `State.reset` is legal (40_table_provider.md rules R62 and R69). -/
theorem cfgLegal_resetCfg : cfgLegal resetCfg = true :=
  (cfgLegal_iff resetCfg).2 ⟨by simp [resetCfg], resetGlyph_admissible, resetErrIndex_admissible⟩

/-- Elaboration leaves a legal instance fresh (60_exceptions.md rule R94). -/
theorem elaborate_of_legal {cfg : Cfg} (h : cfgLegal cfg = true) : State.elaborate cfg = State.fresh cfg := by
  rw [State.elaborate, if_pos h]
  rfl

/-- Settles O52: no buffer is bound, the ROM is the configuration's, and the configuration is legal. -/
theorem resetSatisfiesInvariant : Obligations.ResetSatisfiesInvariant :=
  ⟨Memory.nil_wf, Memory.nil_wf, rfl, .inl cfgLegal_resetCfg⟩

/-- Settles O53: the fields of a fresh instance, which elaboration gives because its configuration is legal. -/
theorem resetValues : Obligations.ResetValues :=
  ⟨rfl, rfl, rfl, rfl, rfl, rfl, Vector.length_toList, elaborate_of_legal cfgLegal_resetCfg⟩

end Sys2Proof.Machine

/-! PROOFS. 40_table_provider.md: the contents of the encoding ROM (rules R64 to R67) and what the provider gives (rule R63). -/

namespace Sys2Proof.Machine

/-! ## The index of a character in the ROM -/

/-- A character that the provider finds stands in the ROM at its index. -/
theorem getElem?_of_provideTable {cfg : Cfg} {rom : List Slot} {c : Byte} {g : Slot} {k : Nat}
    (hg : provideTable cfg rom c = some g) (hk : romIndex cfg c = some k) : rom[k]? = some g := by
  simpa [provideTable, hk] using hg

/-- The digit k has index k in a dense table (40_table_provider.md rule R65). -/
theorem romIndex_digitChar {cfg : Cfg} (hr : cfg.range ≠ .full) {k : Nat} (hk : k < 10) :
    romIndex cfg (digitChar k) = some k := by
  have hother : ∀ j : Fin 10, digitChar j ≠ minusChar ∧ errChars.contains (digitChar j) = false ∧
      (digitChar j).toNat - 0x30 = j := by decide
  obtain ⟨hminus, herr, hindex⟩ := hother ⟨k, hk⟩
  cases hrange : cfg.range with
  | full => exact absurd hrange hr
  | digits => simp [romIndex, hrange, hminus, hindex]
  | digitsErr =>
    simp only [romIndex, hrange, if_neg hminus, herr]
    exact congrArg some hindex

/-- The error glyph c has index `10 + H(c)` (40_table_provider.md rule R65). -/
theorem romIndex_errChar {cfg : Cfg} (hr : cfg.range = .digitsErr) {c : Byte} (hc : c ∈ errChars) {k : Nat}
    (hk : errIndexOf cfg.errIndex c = some k) : romIndex cfg c = some (10 + k) := by
  have hminus : c ≠ minusChar := by
    rintro rfl
    exact absurd hc (by decide)
  simp [romIndex, hr, hminus, hc, hk]

/-- The sign glyph has the last index (40_table_provider.md rule R65). -/
theorem romIndex_minusChar_digits {cfg : Cfg} (hr : cfg.range = .digits) : romIndex cfg minusChar = some 10 := by
  simp [romIndex, hr]

theorem romIndex_minusChar_digitsErr {cfg : Cfg} (hr : cfg.range = .digitsErr) :
    romIndex cfg minusChar = some 16 := by
  simp [romIndex, hr]

/-! ## The contents of the ROM -/

section

variable {cfg : Cfg} (hs : cfg.strategy = .table)
include hs

/-- The ROM of FULL lists GLYPH (40_table_provider.md rule R64). -/
theorem romOf_full_contents (hr : cfg.range = .full) :
    (romOf cfg).length = 256 ∧ ∀ c : Byte, (romOf cfg)[c.toNat]? = some (glyphOf cfg c) :=
  ⟨by simp [romOf, hs, hr], fun c => getElem?_of_provideTable (provideTable_full c hs hr) (by simp [romIndex, hr])⟩

/-- The dense table of DIGITS (40_table_provider.md rule R66). -/
theorem romOf_digits_contents (hr : cfg.range = .digits) :
    (romOf cfg).length = 11 ∧ (∀ k, k < 10 → (romOf cfg)[k]? = some (glyphOf cfg (digitChar k))) ∧
      (romOf cfg)[10]? = some (glyphOf cfg minusChar) := by
  refine ⟨by simp [romOf, hs, hr], fun k hk => ?_, ?_⟩
  · exact getElem?_of_provideTable (provideTable_digits hs hr (inRange_digitChar _ hk))
      (romIndex_digitChar (by simp [hr]) hk)
  · exact getElem?_of_provideTable (provideTable_digits hs hr (inRange_minusChar _)) (romIndex_minusChar_digits hr)

section

variable (hr : cfg.range = .digitsErr) (ha : errIndexAdmissible cfg.errIndex = true)
include hr ha

/-- The dense table of DIGITS_ERR, its error glyphs aside (40_table_provider.md rule R67). -/
theorem romOf_digitsErr_contents :
    (romOf cfg).length = 17 ∧ (∀ k, k < 10 → (romOf cfg)[k]? = some (glyphOf cfg (digitChar k))) ∧
      (romOf cfg)[16]? = some (glyphOf cfg minusChar) := by
  refine ⟨by simp [romOf, hs, hr], fun k hk => ?_, ?_⟩
  · exact getElem?_of_provideTable (provideTable_digitsErr hs hr ha (inRange_digitChar _ hk))
      (romIndex_digitChar (by simp [hr]) hk)
  · exact getElem?_of_provideTable (provideTable_digitsErr hs hr ha (inRange_minusChar _))
      (romIndex_minusChar_digitsErr hr)

/-- The dense table of DIGITS_ERR holds the error glyph c at `10 + H(c)` (40_table_provider.md rule R67). -/
theorem romOf_digitsErr_errChar {c : Byte} (hc : c ∈ errChars) {k : Nat} (hk : errIndexOf cfg.errIndex c = some k) :
    (romOf cfg)[10 + k]? = some (glyphOf cfg c) :=
  getElem?_of_provideTable (provideTable_digitsErr hs hr ha (by simp [inRange, hc])) (romIndex_errChar hr hc hk)

end

end

/-- Settles O12: the provider finds every character's glyph, so each stands at the index of its character. -/
theorem encodingRomContents : Obligations.EncodingRomContents := by
  intro cfg
  refine ⟨fun hs => by simp [romOf, hs], romOf_full_contents, romOf_digits_contents, fun hs hr ha => ?_⟩
  obtain ⟨hlen, hdigits, hminus⟩ := romOf_digitsErr_contents hs hr ha
  have herr {c : Byte} {k : Nat} := romOf_digitsErr_errChar hs hr ha (c := c) (k := k)
  exact ⟨hlen, hdigits, herr (by decide) rfl, herr (by decide) rfl, herr (by decide) rfl,
    herr (by decide) rfl, herr (by decide) rfl, herr (by decide) rfl, hminus⟩

/-- Settles O14: inside the active range both strategies give GLYPH, outside it neither gives anything. -/
theorem providerGivesGlyph : Obligations.ProviderGivesGlyph :=
  fun cfg _ hl => ⟨provide_inRange hl, provide_outOfRange (romOf cfg)⟩

end Sys2Proof.Machine

/-! PROOFS. 41_character.md: the answer of VALIDATE (rule R73), the classes and the frame of CONVCHAR (rule R74). -/

namespace Sys2Proof.Machine

/-- The response word with OK alone, as its value (30_encoding.md rule R53). -/
theorem rspOk_eq (ok : Bool) : rspOk ok = if ok = true then 1#32 else 0#32 := by
  cases ok <;> rfl

/-- Settles O17: VALIDATE is a response with OUT as it was. -/
theorem validateAnswersMembership : Obligations.ValidateAnswersMembership := by
  intro c s
  rw [exec_validate, execValidate, rspOk_eq]
  rfl

/-- Settles O19: without an output CONVCHAR answers at once; with one its class is that of its character's membership. -/
theorem convcharFailureClasses : Obligations.ConvcharFailureClasses := by
  intro s c hs
  refine ⟨rfl, fun ho => ?_⟩
  obtain ⟨out, -, he⟩ := hs.execConvchar_eq ho c
  exact ⟨_, he, rfl⟩

/-- CONVCHAR could write `OUT[0]` alone, and nothing without an output (70_reset_and_hazards.md rule R110). -/
theorem footprint_convchar_le (cfg : Cfg) {outp : Bool} (c : Byte) {a : Nat} (h : outp = false ∨ a ≠ 0) :
    footprint cfg (.convchar outp c) ≤ a := by
  cases outp with
  | false => exact Nat.zero_le a
  | true =>
    have ha : a ≠ 0 := by simpa using h
    exact Nat.one_le_iff_ne_zero.2 ha

/-- Settles O20: the frame of every transaction, with CONVCHAR's footprint. -/
theorem convcharFrame : Obligations.ConvcharFrame := by
  intro outp c s t h
  obtain ⟨hframe, habove⟩ := transactionFrame (.convchar outp c) s t h
  exact ⟨hframe, fun a ha => habove a (footprint_convchar_le s.cfg c ha)⟩

end Sys2Proof.Machine

/-! PROOFS. 42_word.md: a CONVWORD that its bound or a terminator stops (rules R77 and R79). -/

namespace Sys2Proof.Machine

/-- The stop at the bound or at a terminator is no failure (60_exceptions.md rule R89). -/
theorem scanClass_noFailure {bound : Nat} {stop : ScanStop} (hb : 0 < bound) (h : stop ≠ .unsupported) :
    scanClass bound stop = .noFailure := by
  cases stop with
  | bound => exact if_neg (by omega)
  | terminator => exact if_neg (by omega)
  | unsupported => exact absurd rfl h

section

variable {s : State} (hs : s.Sound) {leng : Bool} {n : Len} {k : Nat}
include hs

/-- A scan whose characters all convert ends at its bound, and reads no further. -/
theorem State.Sound.scanWord_bound (hconv : ConvertsUpTo s k) :
    ∃ out, scanWord s k 0 s.outBuf = .ok ⟨out, k, .bound⟩ := by
  obtain ⟨out, hscan, -⟩ := hs.scanWord_reaches 0 hconv
  exact ⟨out, hscan⟩

/-- A scan whose first `k` characters convert stops at a terminator at index `k`, whether it has a slot or not. -/
theorem State.Sound.scanWord_terminator {m : Nat} (hk : k < m) (hconv : ConvertsUpTo s k)
    (hc : s.inBuf.read k = some nulChar) : ∃ out, scanWord s m 0 s.outBuf = .ok ⟨out, k, .terminator⟩ := by
  obtain ⟨r, rfl⟩ : ∃ r, m = k + (r + 1) := ⟨m - k - 1, by omega⟩
  obtain ⟨out, hscan, -⟩ := hs.scanWord_reaches (r + 1) hconv
  exact ⟨out, by rw [hscan]; simp [scanWord, hc]⟩

/-- A CONVWORD whose scan ends at index `k` without an unsupported character: COUNT = k without a failure, the glyphs of the
characters below `k`, and every other slot as it was (42_word.md rule R79). -/
theorem State.Sound.execConvword_converted (hover : s.overlap = false) (hb : 0 < wordBound s.cfg leng n)
    {out : Memory} {stop : ScanStop} (he : scanWord s (wordBound s.cfg leng n) 0 s.outBuf = .ok ⟨out, k, stop⟩)
    (hstop : stop ≠ .unsupported) :
    ∃ t, execConvword true true leng n s = .next t ∧ OnlyOutputs s t ∧
      t.rsp = some (BitVec.ofNat 32 (65536 * k)) ∧ t.cls = some .noFailure ∧
      (∀ j c, j < k → s.inBuf.read j = some c → t.outBuf.read j = some (glyphOf s.cfg c)) ∧
      ∀ j, k ≤ j → t.outBuf.read j = s.outBuf.read j := by
  obtain ⟨-, hle, hind, -, -, hafter, hat⟩ := scanWord_ok he
  have hcount : k < 2 ^ 16 := lt_of_le_of_lt (by simpa using hle) (wordBound_lt s.cfg leng n)
  have hstopSlot : out.read k = s.outBuf.read k := by
    cases stop with
    | bound => exact hat.2
    | terminator => exact hat.2.2
    | unsupported => exact absurd rfl hstop
  refine ⟨_, execConvword_ok hover he, ⟨rfl, hind⟩, congrArg some (rspCount_eq_ofNat hcount),
    congrArg some (scanClass_noFailure hb hstop), fun j c hj hc => ?_, fun j hj => ?_⟩
  · obtain ⟨d, hd, -, hread⟩ := hs.scanWord_glyph he (Nat.zero_le j) hj
    obtain rfl : c = d := Option.some.inj (hc.symm.trans hd)
    exact hread
  · rcases Nat.eq_or_lt_of_le hj with rfl | hlt
    · exact hstopSlot
    · exact hafter j hlt

end

/-- Settles O24: the scan ends at its bound. -/
theorem convwordStopsAtBound : Obligations.ConvwordStopsAtBound := by
  intro s leng n hs hover hb hconv
  obtain ⟨out, he⟩ := hs.scanWord_bound hconv
  exact hs.execConvword_converted hover hb he (by decide)

/-- Settles O25: the scan reaches the terminator below its bound. -/
theorem convwordStopsAtTerminator : Obligations.ConvwordStopsAtTerminator := by
  intro s leng n k hs hover hk hconv hc
  obtain ⟨out, he⟩ := hs.scanWord_terminator hk hconv hc
  exact hs.execConvword_converted hover (by omega) he (by decide)

end Sys2Proof.Machine
